-- ==== Sys2Proof/Word.lean ====
section
/-! DEFINITION. The two word types of the block: 8-bit bytes and 16-bit values (spec/00_scope.md R17, R18).
Bit 0 is the least significant bit, as in `BitVec`. -/

namespace Sys2Proof

/-- An 8-bit unsigned byte, bits 7 (most significant) down to 0 (R17). -/
abbrev Byte := BitVec 8

/-- A 16-bit unsigned value, bits 15 down to 0 (R17): the CRC register, a checksum, a request length. -/
abbrev Word16 := BitVec 16

end Sys2Proof
end

