-- ==== Sys2Proof/Config.lean ====
section
/-! DEFINITION. What an implementation fixes (spec/00_scope.md section 3, R24): the configuration parameters as one
record, which `State` holds, and the values the spec leaves without any value (R31), as constants with no body. -/

namespace Sys2Proof

/-- R12: `RESP_LEN_WIDTH` is one of {1, 2} bytes. -/
inductive RespLenWidth
  | one
  | two
  deriving DecidableEq, Repr

/-- R24: the configuration parameters, set once before any connection exists and constant for the run.
`CRC_POLY`, `HEADER` and `REQ_LEN_WIDTH` are constants, not parameters (Machine/Params.lean). -/
structure Config where
  /-- R9: `CRC_INIT`, the value the CRC register starts every computation with. -/
  crcInit : Word16
  /-- R12: `RESP_LEN_WIDTH`. -/
  respLenWidth : RespLenWidth
  /-- R13: `MAX_READ`, the largest number of bytes one host read delivers. -/
  maxRead : Nat
  /-- R16: `PORT`, the TCP port the host listens on; no rule of the block depends on it. -/
  port : Nat
  deriving DecidableEq, Repr

/-- FREE VALUE (R31, R141: `sh` is loaded before its iterations; log entry 5): what `sh` holds in a computation over
these data bytes before the first byte is loaded. No operation reads it. -/
opaque Config.freeSh : List Byte → Byte

/-- FREE VALUE (R31: `cnt` has "no value before the first iteration"; log entry 5). No operation reads it. -/
opaque Config.freeCnt : List Byte → BitVec 3

/-- FREE VALUE (R31: `fb` has "no value before the first iteration"; log entry 5). No operation reads it. -/
opaque Config.freeFb : List Byte → Bool

end Sys2Proof
end

