-- ==== Sys2Proof/Syntax.lean ====
section
/-! DEFINITION. The block's instructions: its command opcodes (spec/00_scope.md R2, spec/30_encoding.md R64), one
constructor per row of spec/opcode_table.json. Neither has an operand: the handlers are zero-argument functions and
the body bytes after the opcode are never read (R57, R97, R98, R101). -/

namespace Sys2Proof

/-- The two commands of the opcode map (R64). -/
inductive Instr
  /-- R97: GET_ID, opcode `0x90`, "get device id". -/
  | getId
  /-- R98: GET_WEIGHT, opcode `0xA0`, "get weight". -/
  | getWeight
  deriving DecidableEq, Repr

end Sys2Proof
end

