-- ==== Sys2Proof/WellFormed.lean ====
section
/-! DEFINITION. What a well-formed term is. An instruction has no operand, so nothing about it can be ill-formed
(R97, R98). The checks are on the frame forms of spec/30_encoding.md R68, whose length field must hold the length. -/

namespace Sys2Proof

/-- An instruction has no operand field (R63: "The body has no register, immediate, mode or other operand fields"),
so every instruction is well formed. -/
def Instr.wf : Instr → Bool
  | .getId => true
  | .getWeight => true

/-- R68: the spec's notation for a buffer: `REQ(b)`, `RSP(p)` and `RAW(...)`. -/
inductive FrameForm
  /-- `REQ(b)`: the request frame with body `b` (R94). -/
  | req (body : List Byte)
  /-- `RSP(p)`: the response frame with payload `p` (R92). -/
  | rsp (payload : List Byte)
  /-- `RAW(...)`: a buffer given byte for byte, used for malformed frames. -/
  | raw (bytes : List Byte)
  deriving DecidableEq, Repr

/-- R12: the width of the response length field, in bytes. -/
def RespLenWidth.bytes : RespLenWidth → Nat
  | .one => 1
  | .two => 2

/-- Whether the length field of the form holds its length: `REQ(p)` is "defined for len(p) <= 65535" (R94), and
`RSP(p)` needs `len(p) < 2^(8*W)` (R62, R93). A raw buffer has no computed field. -/
def FrameForm.wf (w : RespLenWidth) : FrameForm → Bool
  | .req body => decide (body.length ≤ 65535)
  | .rsp payload => decide (payload.length < 2 ^ (8 * w.bytes))
  | .raw _ => true

end Sys2Proof
end

