-- ==== Sys2Proof/Decode.lean ====
section
/-! DEFINITION. The decoder: from the body of a request to the command its first byte selects, or a rejection by name
(spec/30_encoding.md R57, R63 to R65; spec/42_dispatch.md R96, R99, R100), and the encoder written from the same map.
The frame that carries a body is the FrameCodec's (Machine/FrameCodec.lean). -/

namespace Sys2Proof

/-- Why a body selects no command. Both are the error kind `UnknownOpcode` to the block (R99, R100). -/
inductive DecodeError
  /-- R100: an empty body has no opcode. -/
  | emptyBody
  /-- R65, R99: one of the 254 opcodes with no entry in the opcode map. -/
  | unknownOpcode (op : Byte)
  deriving DecidableEq, Repr

/-- R64: the opcode of a command. -/
def Instr.opcode : Instr → Byte
  | .getId => 0x90#8
  | .getWeight => 0xA0#8

/-- R64, R65: an opcode matches an entry only when all 8 bits are equal (mask `0xFF`). -/
def decodeOpcode (op : Byte) : Option Instr :=
  if op = 0x90#8 then some .getId
  else if op = 0xA0#8 then some .getWeight
  else none

/-- R57, R63: the opcode is `BODY[0]`; the bytes after it are handed back unread (R101). -/
def decodeBody : List Byte → Except DecodeError (Instr × List Byte)
  | [] => .error .emptyBody
  | op :: rest =>
    match decodeOpcode op with
    | some i => .ok (i, rest)
    | none => .error (.unknownOpcode op)

/-- The body bytes of the shortest request body that carries a command: its opcode (R57). -/
def encode (i : Instr) : List Byte := [i.opcode]

/-- The `n` bytes of `w`, the least significant byte first: the opcode table numbers a later byte's bits on from the
first byte's. -/
def bytesOfWord : Nat → Nat → List Byte
  | 0, _ => []
  | n + 1, w => BitVec.ofNat 8 w :: bytesOfWord n (w / 256)

/-- The body bytes of the instruction whose `nbits` table bits are `w` (a command's only bits are its opcode's 8). -/
def tableBody (nbits w : Nat) : List Byte := bytesOfWord ((nbits + 7) / 8) w

/-- What the decoder reads from the instruction whose bits are `w`, numbered as spec/opcode_table.json numbers them. -/
def decodeTableWord (nbits w : Nat) : Option Instr :=
  match decodeBody (tableBody nbits w) with
  | .ok (i, _) => some i
  | .error _ => none

end Sys2Proof
end

