-- ==== Sys2Proof/Machine/Params.lean ====
section
/-! DEFINITION. The block's constants and what the block reset gives the shared state (spec/00_scope.md section 3,
spec/10_state.md R28, spec/70_reset_and_hazards.md R140). -/

namespace Sys2Proof.Machine

/-- R1: the block's identity string, the spec's own (decision D1). Nothing depends on it. -/
def identity : String := "MKE-CORE"

/-- R8: `CRC_POLY`, fixed. -/
def crcPoly : Word16 := 0x1021#16

/-- R10: `HEADER`, the same 3 bytes in requests and responses. -/
def header : List Byte := [0xF8#8, 0x55#8, 0xCE#8]

/-- R9, R12, R13, R16: this hardware's configuration. -/
def hardwareConfig : Config where
  crcInit := 0x0000#16
  respLenWidth := .one
  maxRead := 100
  port := 8000

/-- R58: the payload of GET_ID: subcommand `0x50`, then the ASCII serial "1234". -/
def idPayload : List Byte := [0x50#8, 0x31#8, 0x32#8, 0x33#8, 0x34#8]

/-- R59: the payload of GET_WEIGHT: subcommand `0x10`, four zero weight bytes, decimal-division code `0x03`. -/
def weightPayload : List Byte := [0x10#8, 0x00#8, 0x00#8, 0x00#8, 0x00#8, 0x03#8]

/-- R28: the contents of REGISTRY: the entries that are not `none`, in rising order of opcode. An opcode that is not
listed has the entry `none`. -/
def registryRom : List (Nat × List Byte) := [(0x90, idPayload), (0xA0, weightPayload)]

end Sys2Proof.Machine
end

