-- ==== Sys2Proof/Machine/State.lean ====
section
/-! DEFINITION. Every piece of state the spec gives the block (spec/10_state.md), and beside it the connections'
client side and the host's pending actions (spec/60_exceptions.md section 4). Plain data throughout. -/

namespace Sys2Proof.Machine

/-- R26: the connection state machine. Its 2-bit codes are `ConnState.code` (Machine/Ops.lean). -/
inductive ConnState
  | reading
  | processing
  | writing
  | closed
  deriving DecidableEq, Repr

/-- R111: the closed set of error kinds. -/
inductive ErrorKind
  | invalidHeader
  | invalidChecksum
  | truncatedFrame
  | unknownOpcode
  deriving DecidableEq, Repr

/-- R25: the values of REJECT_REASON. Its 3-bit codes are `RejectReason.code` (Machine/Ops.lean); codes 5 to 7 are
reserved and never written, so no value stands for them. -/
inductive RejectReason
  | none
  | invalidHeader
  | invalidChecksum
  | truncatedFrame
  | unknownOpcode
  deriving DecidableEq, Repr

/-- R116: what the model fault mark of R139 can record. It is no error kind and takes no abort path. -/
inductive ModelFault
  /-- R93: the payload does not fit the response length field. -/
  | payloadTooLong
  deriving DecidableEq, Repr

/-- R37: one byte-addressed space (RX or TX) as address and byte pairs, addresses strictly rising. An address that is
not listed has no value (`Memory.unlisted`; R33, log entry 6). -/
abbrev Memory := List Host.Cell

/-- What an unlisted address reads as: nothing. The reader of such a byte faults (R33, 93_implementation_defined I6). -/
def Memory.unlisted : Option Byte := Option.none

/-- The canonical form: addresses strictly rising, so no address is listed twice. -/
def Memory.wf : Memory → Bool
  | [] => true
  | [_] => true
  | a :: b :: m => decide (a.1 < b.1) && Memory.wf (b :: m)

/-- R28, R37: the REGISTRY space as opcode and payload pairs; an opcode that is not listed has the entry `none`. -/
abbrev Registry := List (Nat × List Byte)

/-- R31: the four registers of one CRC computation. -/
structure CrcUnit where
  /-- the running checksum -/
  crc : Word16
  /-- the byte being shifted -/
  sh : Byte
  /-- the iteration count within the current byte -/
  cnt : BitVec 3
  /-- the feedback value: `true` for `0x80`, `false` for `0x00` -/
  fb : Bool
  deriving DecidableEq, Repr

/-- R36, R139: what one block instance (one connection) owns. -/
structure Instance where
  /-- R26 -/
  connState : ConnState
  /-- R27: how many request bytes the host read delivered -/
  rxLen : Nat
  /-- R27: the request buffer -/
  rx : Memory
  /-- R30: the latch PARSE writes and DISPATCH reads -/
  body : List Byte
  /-- R30: the latch DISPATCH writes and BUILD reads -/
  payload : List Byte
  /-- R29: how many response bytes BUILD wrote -/
  txLen : Nat
  /-- R29: the response buffer -/
  tx : Memory
  /-- R25 -/
  rejectReason : RejectReason
  /-- R139, R116: the model fault mark; never cleared -/
  faultMark : Option ModelFault
  /-- R31: the registers of the CRC computation in progress; `none` when no computation is in progress. Every
  computation begins and ends inside one step (R3, R44), so it is `none` between steps (log entry 4). -/
  crcUnit : Option CrcUnit
  deriving DecidableEq, Repr

/-- R139: instance reset. -/
def Instance.reset : Instance where
  connState := .reading
  rxLen := 0
  rx := []
  body := []
  payload := []
  txLen := 0
  tx := []
  rejectReason := .none
  faultMark := Option.none
  crcUnit := Option.none

/-- One accepted connection: the block instance that serves it, and the client's and host's side of it, which the host
rules R127 to R133 speak of. The fields beside `inst` are the model's own (log entry 2). -/
structure Conn where
  inst : Instance
  /-- R127: the bytes the client has sent and no read has taken -/
  sent : List Byte
  /-- R132: the client has closed its side, so it sends no more -/
  clientClosed : Bool
  /-- R129: the bytes the host has written to the client -/
  received : List Byte
  /-- R130: the host has closed the connection and released the instance -/
  released : Bool
  deriving DecidableEq, Repr

/-- R126: a connection as the host accepts it: an instance in the reset state, nothing sent or received. -/
def Conn.reset : Conn where
  inst := Instance.reset
  sent := []
  clientClosed := false
  received := []
  released := false

/-- The actions of the host, the clients and the instances that the model's schedule can name (R126 to R133, R136,
R143). A number names a connection in the order of acceptance (the model's own: no instance sees it, R136). -/
inductive HostAction
  /-- R143: the host starts the listener on `PORT`. -/
  | listen
  /-- R126: the host accepts a connection. -/
  | accept
  /-- R127: the client of connection `n` sends bytes. -/
  | clientSend (n : Nat) (bytes : List Byte)
  /-- R132: the client of connection `n` closes its side. -/
  | clientClose (n : Nat)
  /-- R127: the one read of connection `n` returns; `k` is the free input that limits how many bytes it delivers. -/
  | read (n k : Nat)
  /-- R128: the instance of connection `n` runs PROCESS. -/
  | process (n : Nat)
  /-- R129: the host's write and flush on connection `n` succeed. -/
  | write (n : Nat)
  /-- R133: the host's write or flush on connection `n` fails; `k` is the free number of bytes that went out first. -/
  | writeFail (n k : Nat)
  /-- R130: the host closes connection `n` and releases its instance. -/
  | release (n : Nat)
  deriving DecidableEq, Repr

/-- The whole machine: the shared read-only state, the connections, and what moves next. -/
structure State where
  /-- R24: the configuration; nothing writes it -/
  cfg : Config
  /-- R28: the REGISTRY ROM; nothing writes it -/
  registry : Registry
  /-- R143: the port the listener is started on, if it is started -/
  listener : Option Nat
  /-- R15, R36, R136: the connections, oldest first; any finite number -/
  conns : List Conn
  /-- the connection whose PROCESS is being executed (the model's own, log entry 1); `none` between steps -/
  active : Option Nat
  /-- the pending actions, the next one first (the model's own, log entry 1): it fixes the interleaving and the free
  inputs, which the spec leaves open (R127, R136) -/
  schedule : List HostAction
  deriving DecidableEq, Repr

/-- Why the model stops with a fault. -/
inductive Fault
  /-- R33, 93_implementation_defined I6: an operation read a byte of RX or TX that nothing has written. Raised by PARSE
  and by the host's write of TX. Safe: the model stops, and no state that reset leads to raises it. -/
  | readUnwritten
  deriving DecidableEq, Repr

/-- Why the model refuses. -/
inductive Refusal
  /-- `exec` has no meaning yet for this mnemonic. Raised by `exec`'s arm alone. Safe: nothing is claimed. -/
  | notModelled (mnemonic : String)
  /-- A command was executed with no connection whose PROCESS is being executed, so there is no PAYLOAD latch to write
  (R96: DISPATCH is a step of PROCESS). Raised by the commands' meanings. Safe: `step` never executes a command so. -/
  | noInstance
  deriving DecidableEq, Repr

/-- R140: block reset. The configuration and REGISTRY take their values and no connection exists. The listener is not
started (R143), and no action is pending. -/
def State.reset : State where
  cfg := hardwareConfig
  registry := registryRom
  listener := Option.none
  conns := []
  active := Option.none
  schedule := []

end Sys2Proof.Machine
end

