-- ==== Sys2Proof/Machine/Operands.lean ====
section
/-! DEFINITION. Operand assembly: multi-byte fields (spec/00_scope.md R20), the reads of the RX and TX spaces (R21,
spec/20_memory.md R37, R43), and the fields of a request (spec/30_encoding.md R60, R61). -/

namespace Sys2Proof.Machine

/-- R20: `be16(v)`, high byte first. -/
def be16 (v : Word16) : List Byte := [(v >>> 8).setWidth 8, v.setWidth 8]

/-- R20: `from_be16(h, l) = (h << 8) | l`. -/
def fromBe16 (h l : Byte) : Word16 := (h.setWidth 16 <<< 8) ||| l.setWidth 16

/-- R20, R62: `be_W(v)`, big-endian at width 2 (decision D11); used only where `v < 2^(8*W)`. -/
def beWidth (w : RespLenWidth) (v : Nat) : List Byte :=
  match w with
  | .one => [BitVec.ofNat 8 v]
  | .two => be16 (BitVec.ofNat 16 v)

/-- The byte at one address; an unlisted address has no value (R33). -/
def Memory.readByte : Memory → Nat → Option Byte
  | [], _ => Memory.unlisted
  | (a, b) :: m, x => if x = a then some b else Memory.readByte m x

/-- The bytes at the `n` addresses from `a` up, in order; none if one of them has no value. -/
def Memory.readBytes (m : Memory) : (a n : Nat) → Option (List Byte)
  | _, 0 => some []
  | a, n + 1 =>
    match m.readByte a, m.readBytes (a + 1) n with
    | some b, some bs => some (b :: bs)
    | _, _ => none

/-- R21: `MemRead(addr, n)`, the bytes `RX[addr..addr+n)`; defined only when `addr + n <= rx_len`. -/
def Instance.memRead (t : Instance) (addr n : Nat) : Option (List Byte) :=
  if addr + n ≤ t.rxLen then t.rx.readBytes addr n else none

/-- R129: `TX[0..tx_len)`, the response frame as the host reads it. -/
def Instance.txFrame (t : Instance) : Option (List Byte) := t.tx.readBytes 0 t.txLen

/-- A 2-byte big-endian field of RX, zero-extended (R39, R60, R61). -/
def Instance.be16Field (t : Instance) (addr : Nat) : Option Word16 :=
  match t.memRead addr 2 with
  | some [h, l] => some (fromBe16 h l)
  | _ => none

/-- R60, R85: the request length `L = from_be16(RX[3], RX[4])`. -/
def Instance.lengthField (t : Instance) : Option Word16 := t.be16Field 3

/-- R61: the received checksum `from_be16(RX[5+L], RX[6+L])`. -/
def Instance.checksumField (t : Instance) (len : Nat) : Option Word16 := t.be16Field (5 + len)

end Sys2Proof.Machine
end

