-- ==== Sys2Proof/Machine/Ops.lean ====
section
/-! DEFINITION. The named operations over the state: writes of the byte spaces (spec/00_scope.md R21), the REGISTRY
lookup, the codes of the enumerations (spec/10_state.md R25, R26), and the abort (spec/60_exceptions.md R121). -/

namespace Sys2Proof.Machine

/-- Writes one byte, keeping the canonical form: an address keeps one entry, in rising order. -/
def Memory.writeByte : Memory → Nat → Byte → Memory
  | [], x, v => [(x, v)]
  | (a, b) :: m, x, v =>
    if x < a then (x, v) :: (a, b) :: m
    else if x = a then (a, v) :: m
    else (a, b) :: Memory.writeByte m x v

/-- R21: `MemWrite(addr, n, v)`: the byte sequence goes to the addresses from `a` up. -/
def Memory.writeBytes (m : Memory) : (a : Nat) → List Byte → Memory
  | _, [] => m
  | a, b :: bs => (m.writeByte a b).writeBytes (a + 1) bs

/-- R127: the host's read writes `rx_len` and RX whole. -/
def Instance.loadRx (t : Instance) (bytes : List Byte) : Instance :=
  { t with rxLen := bytes.length, rx := Memory.writeBytes [] 0 bytes }

/-- R21: `RomLookup(op)`: the registry entry, or `none`. -/
def Registry.lookup : Registry → Byte → Option (List Byte)
  | [], _ => none
  | (k, p) :: r, op => if op.toNat = k then some p else Registry.lookup r op

/-- R26: the 2-bit codes of `conn_state`. -/
def ConnState.code : ConnState → BitVec 2
  | .reading => 0#2
  | .processing => 1#2
  | .writing => 2#2
  | .closed => 3#2

/-- R25: the 3-bit codes of REJECT_REASON. -/
def RejectReason.code : RejectReason → BitVec 3
  | .none => 0#3
  | .invalidHeader => 1#3
  | .invalidChecksum => 2#3
  | .truncatedFrame => 3#3
  | .unknownOpcode => 4#3

/-- R112 to R115: what each error kind records in REJECT_REASON. -/
def ErrorKind.reason : ErrorKind → RejectReason
  | .invalidHeader => .invalidHeader
  | .invalidChecksum => .invalidChecksum
  | .truncatedFrame => .truncatedFrame
  | .unknownOpcode => .unknownOpcode

/-- R121: abort, the block's only trap entry: REJECT_REASON gets the error's code and `conn_state` goes to Closed. TX is
not written, and nothing else is saved or changed (R117). There is no return from it (R124): Closed is terminal. -/
def Instance.abort (e : ErrorKind) (t : Instance) : Instance :=
  { t with rejectReason := e.reason, connState := .closed }

/-- Whether PROCESS is enabled: the instance is in Processing (R128) and no model fault is recorded (R116). -/
def Instance.ready (t : Instance) : Bool :=
  decide (t.connState = .processing) && decide (t.faultMark = none)

/-- The machine with connection `n` replaced; nothing changes when there is no such connection. -/
def State.setConn (s : State) (n : Nat) (c : Conn) : State := { s with conns := s.conns.set n c }

/-- The machine with the instance of connection `n` updated; nothing changes when there is no such connection. -/
def State.updInst (s : State) (n : Nat) (f : Instance → Instance) : State :=
  match s.conns[n]? with
  | some c => s.setConn n { c with inst := f c.inst }
  | none => s

/-- The connection whose PROCESS is being executed, with its number. -/
def State.activeConn (s : State) : Option (Nat × Conn) :=
  match s.active with
  | some n => (s.conns[n]?).map (fun c => (n, c))
  | none => none

/-- R96: the part of DISPATCH that every command shares: the REGISTRY entry of the opcode goes to the PAYLOAD latch, or
`UnknownOpcode` is raised where there is none. -/
def dispatchEntry (op : Byte) (s : State) : Host.Outcome State Fault Refusal :=
  match s.activeConn with
  | none => .refused .noInstance
  | some (n, c) =>
    match s.registry.lookup op with
    | some e => .next (s.setConn n { c with inst := { c.inst with payload := e } })
    | none => .next (s.setConn n { c with inst := c.inst.abort .unknownOpcode })

end Sys2Proof.Machine
end

