-- ==== Sys2Proof/Machine/Commands.lean ====
section
/-! DEFINITION. The two commands (spec/42_dispatch.md section 2): each one's effect is its REGISTRY entry going to the
PAYLOAD latch of the instance whose PROCESS is being executed. -/

namespace Sys2Proof.Machine

/-- R97: GET_ID: `PAYLOAD <- 50 31 32 33 34`, the entry of opcode `0x90` (R28). -/
def execGetId (s : State) : Host.Outcome State Fault Refusal := dispatchEntry Instr.getId.opcode s

/-- R98: GET_WEIGHT: `PAYLOAD <- 10 00 00 00 00 03`, the entry of opcode `0xA0` (R28). -/
def execGetWeight (s : State) : Host.Outcome State Fault Refusal := dispatchEntry Instr.getWeight.opcode s

end Sys2Proof.Machine
end

