-- ==== Sys2Proof/Machine/Dispatch.lean ====
section
/-! DEFINITION. The command multiplexer: one arm per command (spec/42_dispatch.md R96). -/

namespace Sys2Proof.Machine

def exec (i : Instr) (s : State) : Host.Outcome State Fault Refusal :=
  match i with
  | .getId => Sys2Proof.Machine.execGetId s
  | .getWeight => Sys2Proof.Machine.execGetWeight s

end Sys2Proof.Machine
end

