-- ==== Sys2Proof/Machine/Flags.lean ====
section
/-! DEFINITION. The block's one flag-like value, the CRC feedback (spec/10_state.md R32). It has no condition codes,
status flags or predicates that one operation sets for another to test. -/

namespace Sys2Proof.Machine

/-- R69: `fb <- (sh ^ (crc >> 8)) & 0x80`, as whether it is non-zero. -/
def feedback (crc : Word16) (sh : Byte) : Bool :=
  ((sh.setWidth 16 ^^^ (crc >>> 8)) &&& 0x0080#16) != 0#16

end Sys2Proof.Machine
end

