-- ==== Sys2Proof/Machine/Checksum.lean ====
section
/-! DEFINITION. The ChecksumEngine (spec/40_checksum.md R69 to R71): one iteration, one byte, a whole computation. -/

namespace Sys2Proof.Machine

/-- R69: CRC_ITER, with `cnt` holding the iteration's number (R31, R70). The shifted register is 17 bits wide until the
mask to 16 bits. -/
def CrcUnit.iter (u : CrcUnit) (k : BitVec 3) : CrcUnit :=
  let fb := feedback u.crc u.sh
  let shifted : BitVec 17 := u.crc.setWidth 17 <<< 1
  let t : BitVec 17 := if fb then shifted ^^^ crcPoly.setWidth 17 else shifted
  { crc := t.setWidth 16, sh := u.sh <<< 1, cnt := k, fb := fb }

/-- R70: `for cnt in 0 .. 7`. -/
def iterations : List (BitVec 3) := [0#3, 1#3, 2#3, 3#3, 4#3, 5#3, 6#3, 7#3]

/-- R70: CRC_BYTE: `sh` is loaded with the byte, then 8 iterations run. -/
def CrcUnit.byte (u : CrcUnit) (b : Byte) : CrcUnit :=
  iterations.foldl CrcUnit.iter { u with sh := b }

/-- R31, R71: the registers at the start of a computation: `crc` is `CRC_INIT`, the others hold free values. -/
def CrcUnit.start (init : Word16) (data : List Byte) : CrcUnit where
  crc := init
  sh := Config.freeSh data
  cnt := Config.freeCnt data
  fb := Config.freeFb data

/-- R71: the registers at the end of the computation over `data`, its bytes taken in order. -/
def crcRun (init : Word16) (data : List Byte) : CrcUnit :=
  data.foldl CrcUnit.byte (CrcUnit.start init data)

/-- R71, R76: CRC_COMPUTE: the 16-bit register as it stands after the last byte. -/
def crcCompute (init : Word16) (data : List Byte) : Word16 := (crcRun init data).crc

/-- R31, R77: a computation's registers end with it. -/
def Instance.endCrc (t : Instance) : Instance := { t with crcUnit := none }

end Sys2Proof.Machine
end

