-- ==== Sys2Proof/Machine/FrameCodec.lean ====
section
/-! DEFINITION. The FrameCodec (spec/41_frame_codec.md): the parser, the serializer, and the request serializer that says
how a client forms a request. -/

namespace Sys2Proof.Machine

/-- R22: an operation answers `ok(value)` or `err(E)`; `fault` is the model's, for a read of an unwritten byte (R33). -/
inductive OpResult (α : Type)
  | ok (v : α)
  | err (e : ErrorKind)
  | fault (f : Fault)
  deriving DecidableEq, Repr

/-- R86 to R89: frame completeness, body extraction and checksum verification, for a declared length `len`. -/
def Instance.parseBody (cfg : Config) (t : Instance) (len : Nat) : OpResult (List Byte) :=
  if t.rxLen < 7 + len then .err .truncatedFrame
  else
    match t.memRead 5 len, t.checksumField len with
    | some body, some received =>
      if received ≠ crcCompute cfg.crcInit body then .err .invalidChecksum else .ok body
    | _, _ => .fault .readUnwritten

/-- R81: PARSE, its checks in the order of R80. -/
def Instance.parse (cfg : Config) (t : Instance) : OpResult (List Byte) :=
  if t.rxLen < 3 then .err .invalidHeader
  else
    match t.memRead 0 3 with
    | none => .fault .readUnwritten
    | some h =>
      if h ≠ header then .err .invalidHeader
      else if t.rxLen < 5 then .err .truncatedFrame
      else
        match t.lengthField with
        | none => .fault .readUnwritten
        | some len => t.parseBody cfg len.toNat

/-- R92: BUILD's four `MemWrite`s, for a payload that fits the length field: the header constant, the length, the
payload, and the checksum of the payload only. -/
def writeFrame (cfg : Config) (p : List Byte) (tx : Memory) : Memory :=
  let w := cfg.respLenWidth
  (((tx.writeBytes 0 header).writeBytes 3 (beWidth w p.length)).writeBytes (3 + w.bytes) p).writeBytes
    (3 + w.bytes + p.length) (be16 (crcCompute cfg.crcInit p))

/-- R92: the response frame goes to TX, and `tx_len` is its length; the CRC computation over the payload has ended. -/
def Instance.writeResponse (cfg : Config) (t : Instance) : Instance :=
  { t with
    tx := writeFrame cfg t.payload t.tx
    txLen := 5 + cfg.respLenWidth.bytes + t.payload.length
    crcUnit := none }

/-- R92, R93: BUILD, from the PAYLOAD latch to TX; a payload that does not fit records the model fault and writes
nothing. -/
def Instance.build (cfg : Config) (t : Instance) : Instance :=
  if t.payload.length ≥ 2 ^ (8 * cfg.respLenWidth.bytes) then { t with faultMark := some .payloadTooLong }
  else t.writeResponse cfg

/-- R94: `REQ(p)`, the request frame with body `p`; defined for `len(p) <= 65535`. -/
def reqFrame (cfg : Config) (p : List Byte) : List Byte :=
  header ++ be16 (BitVec.ofNat 16 p.length) ++ p ++ be16 (crcCompute cfg.crcInit p)

/-- R56, R68: `RSP(p)`, the response frame with payload `p`; defined for `len(p) < 2^(8*W)`. -/
def rspFrame (cfg : Config) (p : List Byte) : List Byte :=
  header ++ beWidth cfg.respLenWidth p.length ++ p ++ be16 (crcCompute cfg.crcInit p)

/-- R68: the bytes a frame form expands to; an ill-formed one expands to nothing. -/
def assemble (cfg : Config) (f : FrameForm) : Option (List Byte) :=
  if f.wf cfg.respLenWidth then
    match f with
    | .req body => some (reqFrame cfg body)
    | .rsp payload => some (rspFrame cfg payload)
    | .raw bytes => some bytes
  else none

end Sys2Proof.Machine
end

