-- ==== Sys2Proof/Machine/Transaction.lean ====
section
/-! DEFINITION. PROCESS, the request transaction (spec/43_transaction.md R105): PARSE, then DISPATCH of the body's
command, then BUILD, as one step of one instance. -/

namespace Sys2Proof.Machine

/-- R105: the end of PROCESS for an instance that DISPATCH has left in Processing: BUILD, then `conn_state <- Writing`.
A model fault leaves the instance where it is (R93, R116); an instance that DISPATCH aborted is left alone (R107). -/
def Instance.finish (cfg : Config) (t : Instance) : Instance :=
  if t.connState = .processing then
    let t := t.build cfg
    if t.faultMark = none then { t with connState := .writing } else t
  else t

/-- The end of PROCESS for the connection being executed, which then is no longer the one being executed. -/
def State.finishActive (s : State) : State :=
  match s.active with
  | some n => { s.updInst n (Instance.finish s.cfg) with active := none }
  | none => s

/-- What follows DISPATCH in PROCESS, if it answered a next state. -/
def finishOutcome : Host.Outcome State Fault Refusal → Host.Outcome State Fault Refusal
  | .next s => .next s.finishActive
  | .fault f => .fault f
  | .refused r => .refused r

/-- The state in which DISPATCH runs on connection `n`: PARSE has written `BODY <- body` (R89) and its CRC computation
has ended, and `n` is the connection being executed. -/
def State.dispatching (s : State) (n : Nat) (body : List Byte) : State :=
  { s.updInst n (fun t => { t.endCrc with body := body }) with active := some n }

/-- R96, R100: DISPATCH: the command the body's first byte selects is executed; a body that selects none raises
`UnknownOpcode`. `s` is the state in which DISPATCH runs on connection `n`. -/
def dispatchBody (n : Nat) (body : List Byte) (s : State) : Host.Outcome State Fault Refusal :=
  match decodeBody body with
  | .ok (i, _) => exec i s
  | .error _ => .next (s.updInst n (Instance.abort .unknownOpcode))

/-- R105: PROCESS on connection `n`. Nothing happens unless it is in Processing without a model fault (R110, R116). -/
def process (n : Nat) (s : State) : Host.Outcome State Fault Refusal :=
  match s.conns[n]? with
  | none => .next s
  | some c =>
    if c.inst.ready then
      match c.inst.parse s.cfg with
      | .ok body => finishOutcome (dispatchBody n body (s.dispatching n body))
      | .err e => .next (s.updInst n (fun t => t.endCrc.abort e))
      | .fault f => .fault f
    else .next s

end Sys2Proof.Machine
end

