-- ==== Sys2Proof/Machine/HostActions.lean ====
section
/-! DEFINITION. The host interface (spec/60_exceptions.md section 4): each action of the host or a client, as the
spec says. An action that is not enabled where the schedule names it changes nothing (log entry 1). -/

namespace Sys2Proof.Machine

/-- R143: the listener is started on `PORT`. -/
def hostListen (s : State) : State := { s with listener := some s.cfg.port }

/-- R126: a new connection, its instance in the reset state; only once the listener is started (R143). -/
def hostAccept (s : State) : State :=
  match s.listener with
  | some _ => { s with conns := s.conns ++ [Conn.reset] }
  | none => s

/-- R127: the client sends bytes, unless it has closed its side. -/
def Conn.clientSend (bytes : List Byte) (c : Conn) : Conn :=
  if c.clientClosed then c else { c with sent := c.sent ++ bytes }

/-- R132: the client closes its side. -/
def Conn.clientClose (c : Conn) : Conn := { c with clientClosed := true }

/-- R127, R131, R132: whether the one read returns: in Reading, once the client has sent something or closed its side. -/
def Conn.readReturns (c : Conn) : Bool :=
  decide (c.inst.connState = .reading) && (decide (c.sent ≠ []) || c.clientClosed)

/-- R127: how many bytes the read delivers: any number from 0 to `min(MAX_READ, bytes sent)`, as `k` chooses. -/
def readLength (cfg : Config) (sent : List Byte) (k : Nat) : Nat := min k (min cfg.maxRead sent.length)

/-- R127: the one read: RX gets a front part of what the client has sent, and the instance goes to Processing. -/
def Conn.read (cfg : Config) (k : Nat) (c : Conn) : Conn :=
  if c.readReturns then
    let len := readLength cfg c.sent k
    { c with
      inst := { c.inst.loadRx (c.sent.take len) with connState := .processing }
      sent := c.sent.drop len }
  else c

/-- R129, R133: in Writing, `bytes` reach the client and the instance goes to Closed; REJECT_REASON is unchanged. -/
def Conn.closeWriting (bytes : List Byte) (c : Conn) : Conn :=
  { c with inst := { c.inst with connState := .closed }, received := c.received ++ bytes }

/-- R130: whether the host has yet to close this connection and release its instance. -/
def Conn.unreleased (c : Conn) : Bool := decide (c.inst.connState = .closed) && !c.released

/-- R130: in Closed, the host closes the connection and releases the instance. -/
def Conn.release (c : Conn) : Conn :=
  if c.inst.connState = .closed then { c with released := true } else c

/-- The machine with connection `n` updated; nothing changes when there is no such connection. -/
def State.updConn (s : State) (n : Nat) (f : Conn → Conn) : State :=
  match s.conns[n]? with
  | some c => s.setConn n (f c)
  | none => s

/-- R129, R133: the host's write of TX on connection `n`, of which `sentOf` says what reaches the client. -/
def hostWrite (n : Nat) (sentOf : List Byte → List Byte) (s : State) : Host.Outcome State Fault Refusal :=
  match s.conns[n]? with
  | none => .next s
  | some c =>
    if c.inst.connState = .writing then
      match c.inst.txFrame with
      | some frame => .next (s.setConn n (c.closeWriting (sentOf frame)))
      | none => .fault .readUnwritten
    else .next s

/-- One action of the schedule. -/
def perform (a : HostAction) (s : State) : Host.Outcome State Fault Refusal :=
  match a with
  | .listen => .next (hostListen s)
  | .accept => .next (hostAccept s)
  | .clientSend n bytes => .next (s.updConn n (Conn.clientSend bytes))
  | .clientClose n => .next (s.updConn n Conn.clientClose)
  | .read n k => .next (s.updConn n (Conn.read s.cfg k))
  | .process n => process n s
  | .write n => hostWrite n (fun frame => frame) s
  | .writeFail n k => hostWrite n (fun frame => frame.take k) s
  | .release n => .next (s.updConn n Conn.release)

/-- The oldest connection whose PROCESS is enabled: it needs no host action (R128). -/
def State.readyConn (s : State) : Option Nat := s.conns.findIdx? (fun c => c.inst.ready)

/-- The oldest connection that the host has yet to release. Unlike the read and the write, the release waits for nothing
(R130, R149). -/
def State.unreleasedConn (s : State) : Option Nat := s.conns.findIdx? Conn.unreleased

/-- The work that needs nothing from outside the machine: PROCESS of the oldest connection that is ready, else the release
of the oldest closed connection (that PROCESS comes first: DESIGN CHOICE, log entry 15). -/
def State.idleAction (s : State) : Option HostAction :=
  (s.readyConn.map HostAction.process).or (s.unreleasedConn.map HostAction.release)

/-- What the machine does with no action pending: its own work, else it waits, which is for a read or a write of the host
(R149) or a new connection (R131: an instance with no enabled step is not an error). -/
def idle (s : State) : Host.Outcome State Fault Refusal :=
  match s.idleAction with
  | some a => perform a s
  | none => .next s

/-- The connection that `withFetchWord` adds: in Processing, its one read having delivered the request frame with this
body (R94). -/
def requestConn (cfg : Config) (body : List Byte) : Conn :=
  { Conn.reset with inst := { Instance.reset.loadRx (reqFrame cfg body) with connState := .processing } }

end Sys2Proof.Machine
end

