-- ==== Sys2Proof/Machine/Step.lean ====
section
/-! DEFINITION. One step of the machine: the next pending action, and the instruction the host of this project places
for it. -/

namespace Sys2Proof.Machine

/-- One step: the first action of the schedule; with none pending, the block's own enabled work, or waiting. -/
def step (s : State) : Host.Outcome State Fault Refusal :=
  match s.schedule with
  | [] => idle s
  | a :: rest => perform a { s with schedule := rest }

/-- `s` with the command whose table bits are `w` as the next one to run: a further connection whose read has delivered
the request frame with that body, and its PROCESS as the next action (log entry 3). -/
def State.withFetchWord (s : State) (nbits w : Nat) : State :=
  { s with
    conns := s.conns ++ [requestConn s.cfg (tableBody nbits w)]
    schedule := .process s.conns.length :: s.schedule }

end Sys2Proof.Machine
end

