-- ==== Sys2Proof/Safety.lean ====
section
/-! DEFINITION. What holds of every state that reset leads to: the ranges spec/10_state.md gives each element, and what
spec/43_transaction.md and spec/60_exceptions.md say the elements are in each connection state. -/

namespace Sys2Proof.Machine

/-- R27, R29, R37: the space holds exactly the bytes at offsets 0 to `len - 1`. -/
abbrev Memory.exactly (m : Memory) (len : Nat) : Prop := m.map Prod.fst = List.range len

/-- R28: the instance's PAYLOAD is the entry of a command, and TX holds the response frame of it (R92). -/
abbrev Instance.answered (cfg : Config) (t : Instance) : Prop :=
  (t.payload = idPayload ∨ t.payload = weightPayload) ∧ t.txFrame = some (rspFrame cfg t.payload)

/-- R107: nothing was built: PAYLOAD and TX are as at reset. -/
abbrev Instance.unanswered (t : Instance) : Prop := t.payload = [] ∧ t.txLen = 0

/-- What each connection state says of the other elements: the reset state in Reading (R139), nothing built in
Processing (R44), a response and no rejection in Writing (R106), and in Closed either of the two ends (R106, R107). -/
abbrev Instance.stateInv (cfg : Config) (t : Instance) : Prop :=
  (t.connState = .reading → t = Instance.reset) ∧
    (t.connState = .processing → t.body = [] ∧ t.unanswered ∧ t.rejectReason = .none) ∧
    (t.connState = .writing → t.answered cfg ∧ t.rejectReason = .none) ∧
    (t.connState = .closed → (t.answered cfg ∧ t.rejectReason = .none) ∨ (t.unanswered ∧ t.rejectReason ≠ .none))

/-- The invariant of one instance: its buffers hold what their lengths say, within the limits of R27 and of the table
of 10_state.md; no model fault is recorded (R116); no CRC computation is in progress between steps (R31, R77). -/
abbrev Instance.Inv (cfg : Config) (t : Instance) : Prop :=
  t.rx.exactly t.rxLen ∧ t.rxLen ≤ cfg.maxRead ∧ t.tx.exactly t.txLen ∧ t.body.length ≤ cfg.maxRead - 7 ∧
    t.faultMark = none ∧ t.crcUnit = none ∧ t.stateInv cfg

/-- What the client has received: nothing before Closed (R129), nothing after an abort (R121), and else a front part of
the response frame (R129, R133). -/
abbrev Conn.receivedInv (cfg : Config) (c : Conn) : Prop :=
  if c.inst.connState = .closed ∧ c.inst.rejectReason = .none then c.received <+: rspFrame cfg c.inst.payload
  else c.received = []

/-- The invariant of one connection; only a closed one is released (R130). -/
abbrev Conn.Inv (cfg : Config) (c : Conn) : Prop :=
  c.inst.Inv cfg ∧ c.receivedInv cfg ∧ (c.released = true → c.inst.connState = .closed)

/-- The invariant of the machine: REGISTRY is the ROM of R28, no PROCESS is under way between steps (R44), and every
connection meets its own. The configuration is any (R24: it is fixed, not which it is). -/
abbrev State.Inv (s : State) : Prop :=
  s.registry = registryRom ∧ s.active = none ∧ ∀ c ∈ s.conns, c.Inv s.cfg

/-- R26, R126 to R130: the moves of the connection state machine. -/
abbrev ConnState.moves (a b : ConnState) : Prop :=
  a = b ∨ (a = .reading ∧ b = .processing) ∨ (a = .processing ∧ (b = .writing ∨ b = .closed)) ∨
    (a = .writing ∧ b = .closed)

/-- The connection an action is about. -/
def HostAction.target : HostAction → Option Nat
  | .listen => none
  | .accept => none
  | .clientSend n _ => some n
  | .clientClose n => some n
  | .read n _ => some n
  | .process n => some n
  | .write n => some n
  | .writeFail n _ => some n
  | .release n => some n

end Sys2Proof.Machine
end

