-- ==== Sys2Proof/Certificates/Slice0/Obligations.lean ====
section
/-! DEFINITION. The statements for the provers, from the numbered rules of spec/. Each docstring names the rule or the
section it rests on; a premise `s.Inv` is the invariant that `ResetMeetsInvariant` and `StepKeepsInvariant` state. -/

open Sys2Proof Sys2Proof.Machine

/-! ### The ChecksumEngine (spec/40_checksum.md) -/

/-- R69: one iteration, on unsigned integers as the rule's pseudocode writes it, and the rule's example. -/
def Obligations.CrcIterationRound : Prop :=
  (∀ (u : CrcUnit) (k : BitVec 3),
    ((u.iter k).fb = true ↔ (u.sh.toNat ^^^ (u.crc.toNat >>> 8)) &&& 0x80 ≠ 0) ∧
    (u.iter k).crc.toNat
      = (if (u.iter k).fb then (u.crc.toNat <<< 1) ^^^ 0x1021 else u.crc.toNat <<< 1) &&& 0xFFFF ∧
    (u.iter k).sh.toNat = (u.sh.toNat <<< 1) &&& 0xFF) ∧
  (∀ u : CrcUnit, u.crc = 0x0000#16 → u.sh = 0x90#8 → ∀ k : BitVec 3,
    (u.iter k).fb = true ∧ (u.iter k).crc = 0x1021#16 ∧ (u.iter k).sh = 0x20#8)

/-- 40_checksum section 1 (the spec marks it as derived from the pseudocode): the feedback is set exactly when bit 7 of the
shifted byte differs from bit 15 of the register. -/
def Obligations.FeedbackIsTopBitDifference : Prop :=
  ∀ (u : CrcUnit) (k : BitVec 3), (u.iter k).fb = true ↔ u.sh.getLsbD 7 ≠ u.crc.getLsbD 15

/-- R70: a byte is loaded and 8 iterations run; `sh` ends at 0, and from `crc = 0` the rule's values result. What `sh`,
`cnt` and `fb` held before has no effect (R31). -/
def Obligations.CrcByteRunsEightIterations : Prop :=
  (∀ (u : CrcUnit) (b : Byte),
    (u.byte b).crc = ((fun v : CrcUnit => v.iter 0)^[8] { u with sh := b }).crc ∧ (u.byte b).sh = 0x00#8) ∧
  (∀ (u v : CrcUnit) (b : Byte), u.crc = v.crc → (u.byte b).crc = (v.byte b).crc) ∧
  (∀ u : CrcUnit, u.crc = 0x0000#16 →
    (u.byte 0x00#8).crc = 0x0000#16 ∧ (u.byte 0x01#8).crc = 0x1021#16 ∧ (u.byte 0x80#8).crc = 0x9188#16 ∧
    (u.byte 0xFF#8).crc = 0x1EF0#16 ∧ (u.byte 0x90#8).crc = 0x83B9#16)

/-- R71: a computation starts at `CRC_INIT`, takes the bytes in order, and its result is the register after the last. -/
def Obligations.CrcComputeTakesBytesInOrder : Prop :=
  (∀ init : Word16, crcCompute init [] = init) ∧
  (∀ (init : Word16) (data : List Byte) (b : Byte) (u : CrcUnit),
    u.crc = crcCompute init data → crcCompute init (data ++ [b]) = (u.byte b).crc) ∧
  crcCompute 0x0000#16 [0x50#8, 0x31#8, 0x32#8, 0x33#8, 0x34#8] = 0xC2BB#16

/-- 40_checksum section 2, the first law (the spec marks it as its own inference): the byte update equals the form that
XORs the byte into the high half and shifts 8 times. -/
def Obligations.CrcByteEqualsXorInForm : Prop :=
  ∀ (u : CrcUnit) (b : Byte),
    (u.byte b).crc
      = (fun c : Word16 => if c &&& 0x8000#16 ≠ 0#16 then (c <<< 1) ^^^ 0x1021#16 else c <<< 1)^[8]
          (u.crc ^^^ (b.setWidth 16 <<< 8))

/-- 40_checksum section 2, linearity and leading zeros (the spec marks it as its own inference), at `CRC_INIT = 0`. -/
def Obligations.CrcIsLinearAtZero : Prop :=
  (∀ a c : List Byte, a.length = c.length →
    crcCompute 0#16 (List.zipWith (· ^^^ ·) a c) = crcCompute 0#16 a ^^^ crcCompute 0#16 c) ∧
  (∀ (n : Nat) (data : List Byte), crcCompute 0#16 (List.replicate n 0#8 ++ data) = crcCompute 0#16 data) ∧
  (∀ n : Nat, crcCompute 0#16 (List.replicate n 0#8) = 0#16)

/-- 40_checksum section 2, residue (the spec marks it as its own inference): at every `CRC_INIT`, appending the
big-endian checksum drives the register to zero. -/
def Obligations.CrcResidueIsZero : Prop :=
  ∀ (init : Word16) (d : List Byte), crcCompute init (d ++ be16 (crcCompute init d)) = 0#16

/-- 40_checksum section 2, single-bit error detection (the spec marks it as its own inference), at every length and
every `CRC_INIT`. -/
def Obligations.SingleBitFlipChangesCrc : Prop :=
  ∀ (init : Word16) (d : List Byte) (i j : Nat), i < d.length → j < 8 →
    crcCompute init (d.modify i (· ^^^ (1#8 <<< j))) ≠ crcCompute init d

/-! ### The FrameCodec (spec/41_frame_codec.md) -/

/-- R80, R82 to R84, R86, R88: what PARSE answers for every request buffer, its checks in their order. No buffer makes it
read past the end, so it never faults. -/
def Obligations.ParseChecksInOrder : Prop :=
  ∀ (cfg : Config) (t : Instance) (raw : List Byte),
    let len := 256 * (raw.getD 3 0#8).toNat + (raw.getD 4 0#8).toNat
    let body := (raw.drop 5).take len
    (t.loadRx raw).parse cfg
      = if raw.length < 3 then .err .invalidHeader
        else if raw.take 3 ≠ [0xF8#8, 0x55#8, 0xCE#8] then .err .invalidHeader
        else if raw.length < 5 then .err .truncatedFrame
        else if raw.length < 7 + len then .err .truncatedFrame
        else if 256 * (raw.getD (5 + len) 0#8).toNat + (raw.getD (6 + len) 0#8).toNat
            ≠ (crcCompute cfg.crcInit body).toNat then .err .invalidChecksum
        else .ok body

/-- 41_frame_codec sections 2 and 3 (the round trip, which the spec marks as its own inference) with R90's ignored
bytes: PARSE of a request frame, whatever follows it in the buffer, gives the body back. -/
def Obligations.ParseInvertsRequestFrame : Prop :=
  ∀ (cfg : Config) (t : Instance) (p junk : List Byte), p.length ≤ 65535 →
    (t.loadRx (reqFrame cfg p ++ junk)).parse cfg = .ok p

/-- 70_reset_and_hazards section 3 (the spec marks it as its own inference): a read that delivers only part of a valid
frame is rejected, with the kind that the part's length gives. -/
def Obligations.PartOfAFrameIsRejected : Prop :=
  ∀ (cfg : Config) (t : Instance) (p : List Byte) (k : Nat), p.length ≤ 65535 → k < (reqFrame cfg p).length →
    (t.loadRx ((reqFrame cfg p).take k)).parse cfg = .err (if k < 3 then .invalidHeader else .truncatedFrame)

/-- 40_checksum section 2, single-bit error detection (R75, which the spec marks as its own inference), at the codec: a
valid frame with one bit of its body inverted is rejected with `InvalidChecksum`, whatever follows it in the buffer, at
every body length. -/
def Obligations.BodyBitFlipIsRejected : Prop :=
  ∀ (cfg : Config) (t : Instance) (p junk : List Byte) (i j : Nat), p.length ≤ 65535 → i < p.length → j < 8 →
    (t.loadRx ((reqFrame cfg p).modify (5 + i) (· ^^^ (1#8 <<< j)) ++ junk)).parse cfg = .err .invalidChecksum

/-- 30_encoding section 3 (an inference of the spec): a declared length above `MAX_READ - 7` is never satisfied by one
host read. -/
def Obligations.OverlongLengthIsTruncated : Prop :=
  ∀ (cfg : Config) (t : Instance) (h l : Byte) (more : List Byte),
    (header ++ h :: l :: more).length ≤ cfg.maxRead → cfg.maxRead - 7 < 256 * h.toNat + l.toNat →
    (t.loadRx (header ++ h :: l :: more)).parse cfg = .err .truncatedFrame

/-- 41_frame_codec section 3, on response frames read as requests (an inference of the spec): at width 2 the formats
coincide; at width 1 the response of every payload that its length field can hold, the empty one included, is a truncated
frame. -/
def Obligations.ResponseReadAsRequest : Prop :=
  (∀ (cfg : Config) (t : Instance) (p : List Byte), cfg.respLenWidth = .two → p.length ≤ 65535 →
    (t.loadRx (rspFrame cfg p)).parse cfg = .ok p) ∧
  (∀ (cfg : Config) (t : Instance) (p : List Byte), cfg.respLenWidth = .one → p.length < 256 →
    (t.loadRx (rspFrame cfg p)).parse cfg = .err .truncatedFrame)

/-- 41_frame_codec section 3 (R92, R93): BUILD writes the header, the length, the payload and the payload's checksum, and
`tx_len`; it leaves every byte of TX past the frame as it was, and every other element but the computation's registers. Two
clauses are the model's, read from the spec by inference: that the registers of the computation are none after it (log
entry 4), and that a payload that does not fit writes nothing but the fault mark (log entry 10). -/
def Obligations.BuildWritesResponseFrame : Prop :=
  ∀ (cfg : Config) (t : Instance),
    (t.payload.length < 2 ^ (8 * cfg.respLenWidth.bytes) →
      ∃ tx, t.build cfg
          = { t with tx := tx, txLen := 5 + cfg.respLenWidth.bytes + t.payload.length, crcUnit := none } ∧
        (t.build cfg).txFrame = some ([0xF8#8, 0x55#8, 0xCE#8]
          ++ (match cfg.respLenWidth with
              | .one => [BitVec.ofNat 8 t.payload.length]
              | .two => [BitVec.ofNat 8 (t.payload.length / 256), BitVec.ofNat 8 t.payload.length])
          ++ t.payload
          ++ [BitVec.ofNat 8 ((crcCompute cfg.crcInit t.payload).toNat / 256),
              BitVec.ofNat 8 (crcCompute cfg.crcInit t.payload).toNat]) ∧
        ∀ a, (t.build cfg).txLen ≤ a → Memory.readByte tx a = t.tx.readByte a) ∧
    (2 ^ (8 * cfg.respLenWidth.bytes) ≤ t.payload.length →
      t.build cfg = { t with faultMark := some .payloadTooLong })

/-! ### The commands (spec/30_encoding.md, spec/42_dispatch.md) -/

/-- 30_encoding section 3: the table's two words, and a few near misses (R99), through the decoder. -/
def Obligations.DecodeSampleWords : Prop :=
  decodeTableWord 8 0b10010000 = some .getId ∧ decodeTableWord 8 0b10100000 = some .getWeight ∧
  decodeTableWord 8 0x91 = none ∧ decodeTableWord 8 0x80 = none ∧ decodeTableWord 8 0xB0 = none ∧
  decodeTableWord 8 0x10 = none ∧ decodeTableWord 8 0x50 = none

/-- R64, R65: a body decodes exactly when its first byte is a command's opcode, all 8 bits equal, and the bytes after
the opcode are handed back unread; every other opcode, and an empty body, is rejected by name. -/
def Obligations.DecodeAgreesWithEncode : Prop :=
  (∀ (i : Instr) (rest : List Byte), i.wf = true → decodeBody (encode i ++ rest) = .ok (i, rest)) ∧
  (∀ (b rest : List Byte) (i : Instr), decodeBody b = .ok (i, rest) → b = encode i ++ rest) ∧
  (∀ (op : Byte) (rest : List Byte), op ≠ 0x90#8 → op ≠ 0xA0#8 → decodeBody (op :: rest) = .error (.unknownOpcode op)) ∧
  decodeBody [] = .error .emptyBody

/-- R97: GET_ID is encoded by a first byte `0x90`, whatever follows it, and completes: PAYLOAD gets `50 31 32 33 34`, and
nothing else changes. The premise on REGISTRY is the
invariant's (R28). -/
def Obligations.GetIdWritesIdPayload : Prop :=
  (∀ rest, decodeBody (0x90#8 :: rest) = .ok (.getId, rest)) ∧
  ∀ (s : State) (n : Nat) (c : Conn), s.active = some n → s.conns[n]? = some c → s.registry = registryRom →
    exec .getId s = .next { s with
      conns := s.conns.set n { c with inst := { c.inst with payload := [0x50#8, 0x31#8, 0x32#8, 0x33#8, 0x34#8] } } }

/-- R98: GET_WEIGHT is encoded by a first byte `0xA0`, whatever follows it, and completes: PAYLOAD gets
`10 00 00 00 00 03`, and nothing else changes. The premise on REGISTRY is the invariant's (R28). -/
def Obligations.GetWeightWritesWeightPayload : Prop :=
  (∀ rest, decodeBody (0xA0#8 :: rest) = .ok (.getWeight, rest)) ∧
  ∀ (s : State) (n : Nat) (c : Conn), s.active = some n → s.conns[n]? = some c → s.registry = registryRom →
    exec .getWeight s = .next { s with
      conns := s.conns.set n { c with inst := { c.inst with payload := [0x10#8, 0x00#8, 0x00#8, 0x00#8, 0x00#8, 0x03#8] } } }

/-- 42_dispatch section 2: the frame of GET_ID and GET_WEIGHT. They store to no byte space, and change no element but
the PAYLOAD latch of the one instance that is executed. -/
def Obligations.CommandsChangeOnlyPayload : Prop :=
  ∀ (i : Instr) (s s' : State), s.registry = registryRom → exec i s = .next s' →
    s'.cfg = s.cfg ∧ s'.registry = s.registry ∧ s'.listener = s.listener ∧ s'.active = s.active ∧
    s'.schedule = s.schedule ∧ s'.conns.length = s.conns.length ∧
    (∀ (m : Nat) (c : Conn), s.conns[m]? = some c → s.active ≠ some m → s'.conns[m]? = some c) ∧
    (∀ (n : Nat) (c : Conn), s.active = some n → s.conns[n]? = some c →
      ∃ c', s'.conns[n]? = some c' ∧ c' = { c with inst := { c.inst with payload := c'.inst.payload } } ∧
        ∀ a, c'.inst.rx.readByte a = c.inst.rx.readByte a ∧ c'.inst.tx.readByte a = c.inst.tx.readByte a)

/-- The model's choice (log entry 1): a command executed with no PROCESS under way is refused by name, since there is no
PAYLOAD latch to write. -/
def Obligations.CommandOutsideProcessIsRefused : Prop :=
  ∀ (i : Instr) (s : State), s.activeConn = none → exec i s = .refused .noInstance

/-! ### The transaction (spec/43_transaction.md) -/

/-- 43_transaction R105 and the model's schedule (log entry 1): a step that runs PROCESS on a connection whose request
parses and decodes is `exec` of the decoded command, in the state `dispatching` gives (BODY written, the connection the
executed one, its action taken off the schedule), followed by `finishOutcome` (BUILD, and Writing). With no action
pending the oldest ready connection is the one. -/
def Obligations.StepRunsDecodedCommand : Prop :=
  ∀ (s : State) (n : Nat) (c : Conn) (body rest : List Byte) (i : Instr),
    s.conns[n]? = some c → c.inst.ready = true → c.inst.parse s.cfg = .ok body → decodeBody body = .ok (i, rest) →
    (∀ acts, s.schedule = .process n :: acts →
      step s = finishOutcome (exec i (({ s with schedule := acts } : State).dispatching n body))) ∧
    (s.schedule = [] → s.readyConn = some n →
      step s = finishOutcome (exec i (s.dispatching n body)))

/-- R106: a valid request for either command is answered: for every number of ignored body bytes and every trailer that
follows the frame, TX holds the response frame of the command's payload, REJECT_REASON is still NONE, and the
connection is in Writing. -/
def Obligations.ValidRequestIsAnswered : Prop :=
  ∀ (s : State) (n : Nat) (c : Conn) (t : Instance) (acts : List HostAction) (op : Byte) (p args junk : List Byte),
    s.schedule = .process n :: acts → s.conns[n]? = some c → s.registry = registryRom →
    c.inst = t.loadRx (reqFrame s.cfg (op :: args) ++ junk) → args.length < 65535 →
    c.inst.connState = .processing → c.inst.faultMark = none → c.inst.rejectReason = .none →
    (op = 0x90#8 ∧ p = [0x50#8, 0x31#8, 0x32#8, 0x33#8, 0x34#8] ∨
      op = 0xA0#8 ∧ p = [0x10#8, 0x00#8, 0x00#8, 0x00#8, 0x00#8, 0x03#8]) →
    ∃ t' : Instance,
      step s = .next { s with
        schedule := acts, active := none, conns := s.conns.set n { c with inst := t' } } ∧
      t'.connState = .writing ∧ t'.rejectReason = .none ∧ t'.payload = p ∧ t'.body = op :: args ∧
      t'.txLen = 5 + s.cfg.respLenWidth.bytes + p.length ∧ t'.txFrame = some (rspFrame s.cfg p) ∧
      t'.rx = c.inst.rx ∧ t'.rxLen = c.inst.rxLen ∧ t'.faultMark = none

/-- R107, R121: an error takes the abort path: REJECT_REASON gets the error's code, `conn_state` goes to Closed, nothing
reaches the client, and TX, PAYLOAD and everything else of the machine stay as they were. R99, R100, R115: DISPATCH raises
`UnknownOpcode` for an empty body and for each of the 254 other opcodes, after PARSE has written BODY. The clauses
`crcUnit := none` (PARSE's CRC computation has ended) are the model's, read from the spec by inference (log entry 4), and
those on `schedule` and `active` are its choice (log entry 1). -/
def Obligations.ErrorTakesAbortPath : Prop :=
  ∀ (s : State) (n : Nat) (c : Conn) (acts : List HostAction),
    s.schedule = .process n :: acts → s.conns[n]? = some c → c.inst.ready = true →
    (∀ e : ErrorKind, c.inst.parse s.cfg = .err e → ∃ r : RejectReason,
      step s = .next { s with schedule := acts, conns := s.conns.set n { c with inst :=
        { c.inst with rejectReason := r, connState := .closed, crcUnit := none } } } ∧
      r.code = (match e with
        | .invalidHeader => 1#3
        | .invalidChecksum => 2#3
        | .truncatedFrame => 3#3
        | .unknownOpcode => 4#3)) ∧
    (∀ body : List Byte, c.inst.parse s.cfg = .ok body →
      body.head? ≠ some 0x90#8 → body.head? ≠ some 0xA0#8 →
      step s = .next { s with schedule := acts, active := none, conns := s.conns.set n { c with inst :=
        { c.inst with body := body, rejectReason := .unknownOpcode, connState := .closed, crcUnit := none } } } ∧
      RejectReason.unknownOpcode.code = 4#3)

/-- 20_memory section 7 and 43_transaction (inferences of the spec): the outcome of PROCESS depends on the request
buffer, `CRC_INIT` and `RESP_LEN_WIDTH` alone, whatever else the two machines hold. -/
def Obligations.OutcomeDependsOnRequestAlone : Prop :=
  ∀ (s₁ s₂ s₁' s₂' : State) (n₁ n₂ : Nat) (c₁ c₂ c₁' c₂' : Conn) (acts₁ acts₂ : List HostAction),
    s₁.Inv → s₂.Inv → s₁.schedule = .process n₁ :: acts₁ → s₂.schedule = .process n₂ :: acts₂ →
    s₁.conns[n₁]? = some c₁ → s₂.conns[n₂]? = some c₂ →
    c₁.inst.connState = .processing → c₂.inst.connState = .processing →
    c₁.inst.rxLen = c₂.inst.rxLen → (∀ a, c₁.inst.rx.readByte a = c₂.inst.rx.readByte a) →
    s₁.cfg.crcInit = s₂.cfg.crcInit → s₁.cfg.respLenWidth = s₂.cfg.respLenWidth →
    step s₁ = .next s₁' → step s₂ = .next s₂' → s₁'.conns[n₁]? = some c₁' → s₂'.conns[n₂]? = some c₂' →
    c₁'.inst.txFrame = c₂'.inst.txFrame ∧ c₁'.inst.rejectReason = c₂'.inst.rejectReason ∧
      c₁'.inst.connState = c₂'.inst.connState

/-! ### The host interface (spec/60_exceptions.md section 4) -/

/-- R126, R139: an accepted connection is a new one at the end, its instance in the reset state; the others, in whatever
state they are, are unchanged. -/
def Obligations.AcceptCreatesResetInstance : Prop :=
  (∀ (s : State) (acts : List HostAction) (p : Nat), s.schedule = .accept :: acts → s.listener = some p →
    step s = .next { s with schedule := acts, conns := s.conns ++ [Conn.reset] }) ∧
  Conn.reset.inst.connState.code = 0#2 ∧ Conn.reset.inst.rxLen = 0 ∧ (∀ a, Conn.reset.inst.rx.readByte a = none) ∧
  Conn.reset.inst.body = [] ∧ Conn.reset.inst.payload = [] ∧ Conn.reset.inst.txLen = 0 ∧
  (∀ a, Conn.reset.inst.tx.readByte a = none) ∧ Conn.reset.inst.rejectReason.code = 0#3 ∧
  Conn.reset.inst.faultMark = none

/-- 70_reset_and_hazards section 2 (R143's order): the listener is started on `PORT`, and only then are connections
accepted. That an accept before it changes nothing is the model's choice (log entry 1). -/
def Obligations.ListenerComesBeforeAccept : Prop :=
  (∀ (s : State) (acts : List HostAction), s.schedule = .listen :: acts →
    step s = .next { s with schedule := acts, listener := some s.cfg.port }) ∧
  (∀ (s : State) (acts : List HostAction), s.schedule = .accept :: acts → s.listener = none →
    step s = .next { s with schedule := acts })

/-- R127: the one read: RX gets the first `len` bytes of what the client has sent, `len` being the free input limited to
`MAX_READ` and to the bytes sent, and the instance goes to Processing. Every such length is some input's. -/
def Obligations.ReadDeliversFrontOfSent : Prop :=
  ∀ (s : State) (n k : Nat) (c : Conn) (acts : List HostAction),
    s.schedule = .read n k :: acts → s.conns[n]? = some c → c.inst.connState = .reading →
    (c.sent ≠ [] ∨ c.clientClosed = true) →
    ∃ (len : Nat) (t : Instance),
      step s = .next { s with schedule := acts, conns := s.conns.set n { c with
        inst := t, sent := c.sent.drop len } } ∧
      len ≤ s.cfg.maxRead ∧ len ≤ c.sent.length ∧ (k ≤ s.cfg.maxRead → k ≤ c.sent.length → len = k) ∧
      t.rxLen = len ∧ t.memRead 0 len = some (c.sent.take len) ∧ (∀ a, len ≤ a → t.rx.readByte a = none) ∧
      t = { c.inst with rxLen := len, rx := t.rx, connState := .processing }

/-- R131: a client that has sent nothing and keeps the connection open leaves the instance in Reading, and a machine with
nothing to do waits; neither is a stop. -/
def Obligations.SilentClientLeavesReading : Prop :=
  (∀ (s : State) (n k : Nat) (c : Conn) (acts : List HostAction),
    s.schedule = .read n k :: acts → s.conns[n]? = some c → c.sent = [] → c.clientClosed = false →
    step s = .next { s with schedule := acts }) ∧
  (∀ s : State, s.schedule = [] → (∀ c ∈ s.conns, c.inst.connState = .reading) → step s = .next s)

/-- R132: a client that closes before sending anything gives a read of 0 bytes, which PROCESS rejects with
`InvalidHeader`, and the instance goes to Closed. -/
def Obligations.EndOfStreamIsInvalidHeader : Prop :=
  ∀ (s : State) (n k : Nat) (c : Conn) (acts : List HostAction),
    s.schedule = .read n k :: .process n :: acts → s.conns[n]? = some c → c.inst.connState = .reading →
    c.inst.faultMark = none → c.sent = [] → c.clientClosed = true →
    ∃ s', core.run 2 s = .next s' ∧ s'.schedule = acts ∧
      ∃ c', s'.conns[n]? = some c' ∧ c'.inst.rxLen = 0 ∧ c'.inst.rejectReason = .invalidHeader ∧
        c'.inst.connState = .closed ∧ c'.received = c.received

/-- R129: the host's write sends all of `TX[0..tx_len)` to the client, and the instance goes to Closed; until the host
delivers it, an instance may wait in Writing. -/
def Obligations.WriteSendsResponseAndCloses : Prop :=
  (∀ (s : State) (n : Nat) (c : Conn) (frame : List Byte) (acts : List HostAction),
    s.schedule = .write n :: acts → s.conns[n]? = some c → c.inst.connState = .writing →
    c.inst.txFrame = some frame →
    step s = .next { s with schedule := acts, conns := s.conns.set n { c with
      inst := { c.inst with connState := .closed }, received := c.received ++ frame } }) ∧
  (∀ s : State, s.schedule = [] → (∀ c ∈ s.conns, c.inst.connState = .writing) → step s = .next s)

/-- R133: a failed write takes the instance to Closed with REJECT_REASON unchanged and no retry. How much of TX went out
first is open (the model's choice, log entry 8): some front part. -/
def Obligations.FailedWriteCloses : Prop :=
  ∀ (s : State) (n k : Nat) (c : Conn) (frame : List Byte) (acts : List HostAction),
    s.schedule = .writeFail n k :: acts → s.conns[n]? = some c → c.inst.connState = .writing →
    c.inst.txFrame = some frame →
    ∃ out, out <+: frame ∧ step s = .next { s with schedule := acts, conns := s.conns.set n { c with
      inst := { c.inst with connState := .closed }, received := c.received ++ out } }

/-- 60_exceptions section 4 (R130): in Closed the host closes the connection and releases the instance: as an action of the
schedule, and with nothing pending and no PROCESS ready, of the oldest closed connection, without one. Three points are the
model's choices: a released connection keeps its elements, under a mark (log entry 2), a release in any other connection
state changes nothing (log entry 1), and PROCESS and the older connection come first (log entry 15). -/
def Obligations.ReleaseOnlyWhenClosed : Prop :=
  ∀ (s : State) (n : Nat) (c : Conn), s.conns[n]? = some c →
    (∀ acts, s.schedule = .release n :: acts →
      (c.inst.connState = .closed →
        step s = .next { s with schedule := acts, conns := s.conns.set n { c with released := true } }) ∧
      (c.inst.connState ≠ .closed → step s = .next { s with schedule := acts })) ∧
    (s.schedule = [] → s.readyConn = none → s.unreleasedConn = some n →
      c.inst.connState = .closed ∧ step s = .next { s with conns := s.conns.set n { c with released := true } })

/-- 60_exceptions section 1 (R116): an instance in Processing with the model fault recorded is stuck: whatever a step is
about, it leaves every element of that instance as it is, so it is never final, the fault is never cleared and it takes no
abort path; and nothing is sent to its client. Its own PROCESS is a step that changes nothing at all: that it is no longer
enabled is the model's, read from R116 by inference (log entry 10). -/
def Obligations.FaultedInstanceIsStuck : Prop :=
  ∀ (s : State) (n : Nat) (c : Conn), s.conns[n]? = some c →
    c.inst.connState = .processing → c.inst.faultMark ≠ none →
    (∀ s', step s = .next s' →
      ∃ c', s'.conns[n]? = some c' ∧ c'.inst = c.inst ∧ c'.received = c.received) ∧
    (∀ acts, s.schedule = .process n :: acts → step s = .next { s with schedule := acts })

/-! ### The whole machine -/

/-- R140 and 10_state R28: what the block reset leaves: this hardware's configuration, a REGISTRY of exactly two
entries, and no connection. -/
def Obligations.ResetFixesSharedState : Prop :=
  State.reset.cfg = { crcInit := 0x0000#16, respLenWidth := .one, maxRead := 100, port := 8000 } ∧
  (∀ op : Byte, State.reset.registry.lookup op
    = if op = 0x90#8 then some [0x50#8, 0x31#8, 0x32#8, 0x33#8, 0x34#8]
      else if op = 0xA0#8 then some [0x10#8, 0x00#8, 0x00#8, 0x00#8, 0x00#8, 0x03#8]
      else none) ∧
  State.reset.conns = []

/-- 10_state R25, R26: the codes of the two status elements. -/
def Obligations.StatusCodes : Prop :=
  ConnState.reading.code = 0#2 ∧ ConnState.processing.code = 1#2 ∧ ConnState.writing.code = 2#2 ∧
  ConnState.closed.code = 3#2 ∧ RejectReason.none.code = 0#3 ∧ RejectReason.invalidHeader.code = 1#3 ∧
  RejectReason.invalidChecksum.code = 2#3 ∧ RejectReason.truncatedFrame.code = 3#3 ∧
  RejectReason.unknownOpcode.code = 4#3

/-- 70_reset_and_hazards section 1: the reset state meets the invariant. -/
def Obligations.ResetMeetsInvariant : Prop := State.reset.Inv

/-- 10_state section 1 and sections 3 to 5: every step keeps the invariant, from every state that meets it and under
every configuration. Three of its clauses rest on the model's choices, not on the spec: that what a client has received
after a failed write is a front part of the response (log entry 8; decision D23 limits the spec's claims on it to writes
that succeed), that no computation's registers are held between steps (log entry 4), and that no connection is the
executed one between steps (log entry 1). -/
def Obligations.StepKeepsInvariant : Prop :=
  ∀ s s' : State, s.Inv → step s = .next s' → s'.Inv

/-- 10_state section 6 and 60_exceptions section 1: from every state that meets the invariant a step answers a next
state: no read of an unwritten byte, no refusal, whatever the client sent. -/
def Obligations.InvariantStateNeverStops : Prop :=
  ∀ s : State, s.Inv → ∃ s', step s = .next s'

/-- 20_memory section 1: every step keeps every byte space in canonical form, with no other premise. -/
def Obligations.StepKeepsSpacesCanonical : Prop :=
  ∀ s s' : State, (∀ c ∈ s.conns, c.inst.rx.wf = true ∧ c.inst.tx.wf = true) → step s = .next s' →
    ∀ c ∈ s'.conns, c.inst.rx.wf = true ∧ c.inst.tx.wf = true

/-- 10_state sections 2 and 4 (R24, R28): no step writes the configuration or REGISTRY. -/
def Obligations.StepKeepsSharedState : Prop :=
  ∀ s s' : State, step s = .next s' → s'.cfg = s.cfg ∧ s'.registry = s.registry

/-- 60_exceptions section 3 (R124): Closed is terminal: a step leaves every element of a closed instance as it is. -/
def Obligations.ClosedInstanceIsFinal : Prop :=
  ∀ (s s' : State) (n : Nat) (c : Conn), s.conns[n]? = some c → c.inst.connState = .closed → step s = .next s' →
    ∃ c', s'.conns[n]? = some c' ∧ c'.inst = c.inst

/-- 10_state section 3 and 60_exceptions section 4: a step moves a connection only along the state machine's edges. -/
def Obligations.StepFollowsConnStateMachine : Prop :=
  ∀ (s s' : State) (n : Nat) (c : Conn), s.conns[n]? = some c → step s = .next s' →
    ∃ c', s'.conns[n]? = some c' ∧ c.inst.connState.moves c'.inst.connState

/-- 10_state sections 3 and 4: who writes what. RX changes only from Reading to Processing (the one read); BODY, PAYLOAD
and TX change only from Processing; TX only on the way to Writing; REJECT_REASON only from Processing to Closed. -/
def Obligations.StepWritesElementsInTheirStates : Prop :=
  ∀ (s s' : State) (n : Nat) (c c' : Conn), s.conns[n]? = some c → step s = .next s' → s'.conns[n]? = some c' →
    (c'.inst.rx ≠ c.inst.rx ∨ c'.inst.rxLen ≠ c.inst.rxLen →
      c.inst.connState = .reading ∧ c'.inst.connState = .processing) ∧
    (c'.inst.body ≠ c.inst.body ∨ c'.inst.payload ≠ c.inst.payload → c.inst.connState = .processing) ∧
    (c'.inst.tx ≠ c.inst.tx ∨ c'.inst.txLen ≠ c.inst.txLen →
      c.inst.connState = .processing ∧ c'.inst.connState = .writing) ∧
    (c'.inst.rejectReason ≠ c.inst.rejectReason →
      c.inst.connState = .processing ∧ c'.inst.connState = .closed)

/-- 60_exceptions sections 3 and 4: bytes reach a client only in Writing, so a client of an aborted instance receives
nothing (R121), and a write that succeeds sends TX (R129). That the bytes of a failed write are a front part of TX is the
model's choice (log entry 8): R133 does not say, and decision D23 limits claims on what the client receives to writes that
succeed. -/
def Obligations.ClientReceivesOnlyTheResponse : Prop :=
  ∀ (s s' : State) (n : Nat) (c c' : Conn), s.conns[n]? = some c → step s = .next s' → s'.conns[n]? = some c' →
    c'.received ≠ c.received →
    c.inst.connState = .writing ∧ c'.inst.connState = .closed ∧
      ∃ frame out, c.inst.txFrame = some frame ∧ out <+: frame ∧ c'.received = c.received ++ out

/-- 10_state section 6 (R36) and 60_exceptions section 3 (R122): an action about one connection leaves every other
connection as it is, an abort included; and so does the step with nothing pending, whose own work is about one connection or
none. Where that is not the PROCESS of connection `m`, it can at most release it, if it is closed. Which connection that step
is about is the model's choice (log entries 1 and 15). -/
def Obligations.ConnectionsAreIsolated : Prop :=
  ∀ (s s' : State) (m : Nat) (c : Conn), s.conns[m]? = some c → step s = .next s' →
    (∀ a acts, s.schedule = a :: acts → a.target ≠ some m → s'.conns[m]? = some c) ∧
    (s.schedule = [] → (∀ a, s.idleAction = some a → a.target ≠ some m) → s'.conns[m]? = some c) ∧
    (s.schedule = [] → s.readyConn ≠ some m →
      s'.conns[m]? = some c ∨
        c.inst.connState = .closed ∧ s'.conns[m]? = some { c with released := true })

/-- 60_exceptions section 5 and 20_memory section 7: actions about different connections commute, so every interleaving
of two connections' steps gives the same end state. -/
def Obligations.InterleavingsCommute : Prop :=
  ∀ (s : State) (a b : HostAction) (acts : List HostAction) (n m : Nat), s.Inv →
    a.target = some n → b.target = some m → n ≠ m →
    core.run 2 { s with schedule := a :: b :: acts } = core.run 2 { s with schedule := b :: a :: acts }

/-- 60_exceptions section 4 (R128): PROCESS needs no host action: with nothing pending, the machine itself brings every
connection out of Processing, within as many steps as there are connections. That a step with nothing pending runs the
oldest ready PROCESS is the model's choice (log entry 1). -/
def Obligations.ProcessingEndsWithoutHost : Prop :=
  ∀ s : State, s.Inv → s.schedule = [] →
    ∃ (k : Nat) (s' : State), k ≤ s.conns.length ∧ core.run k s = .next s' ∧
      ∀ c ∈ s'.conns, c.inst.connState ≠ .processing

/-- 60_exceptions section 4 (R130) and 70_reset_and_hazards section 4 (R149, decision D27): only the host's read and write
may wait, so a closed connection is released without them: with nothing pending, the machine comes within two steps for each
connection to where every connection is in Reading or in Writing, or is closed and released. That each is one step, PROCESS
before release, is the model's choice (log entry 15). -/
def Obligations.ClosedConnectionsAreReleased : Prop :=
  ∀ s : State, s.Inv → s.schedule = [] →
    ∃ (k : Nat) (s' : State), k ≤ 2 * s.conns.length ∧ core.run k s = .next s' ∧ s'.schedule = [] ∧
      ∀ c ∈ s'.conns, c.inst.connState = .reading ∨ c.inst.connState = .writing ∨
        (c.inst.connState = .closed ∧ c.released = true)

/-- 70_reset_and_hazards section 4 (R149, decision D27): with nothing pending, the machine waits exactly where nothing is left
but the host's reads and writes. -/
def Obligations.OnlyReadAndWriteWait : Prop :=
  ∀ s : State, s.Inv → s.schedule = [] →
    (step s = .next s ↔
      ∀ c ∈ s.conns, c.inst.connState = .reading ∨ c.inst.connState = .writing ∨
        (c.inst.connState = .closed ∧ c.released = true))
end

