-- ==== Sys2Proof/Laws/Checksum.lean ====
section
/-! SUPPORT. The ChecksumEngine's result as a fold over the CRC register alone: what the other registers held before a
byte is loaded has no effect on it. -/

namespace Sys2Proof.Machine

/-- The CRC register after one byte, as a function of the register before it. -/
def crcByte (crc : Word16) (b : Byte) : Word16 :=
  (CrcUnit.byte { crc := crc, sh := 0, cnt := 0, fb := false } b).crc

/-- An iteration's new `crc` and `sh` depend on the old `crc` and `sh` alone. -/
theorem CrcUnit.iter_congr {u v : CrcUnit} (k : BitVec 3) (hc : u.crc = v.crc) (hs : u.sh = v.sh) :
    u.iter k = v.iter k := by
  simp [CrcUnit.iter, hc, hs]

theorem CrcUnit.byte_congr {u v : CrcUnit} (b : Byte) (h : u.crc = v.crc) : u.byte b = v.byte b := by
  have h0 : ({ u with sh := b } : CrcUnit).iter 0#3 = ({ v with sh := b } : CrcUnit).iter 0#3 :=
    CrcUnit.iter_congr 0#3 h rfl
  simp only [CrcUnit.byte, iterations, List.foldl_cons, h0]

theorem CrcUnit.byte_crc (u : CrcUnit) (b : Byte) : (u.byte b).crc = crcByte u.crc b := by
  exact congrArg CrcUnit.crc (CrcUnit.byte_congr b rfl)

theorem CrcUnit.foldl_byte_crc (u : CrcUnit) (data : List Byte) :
    (data.foldl CrcUnit.byte u).crc = data.foldl crcByte u.crc := by
  induction data generalizing u with
  | nil => rfl
  | cons b data ih => rw [List.foldl_cons, ih, List.foldl_cons, CrcUnit.byte_crc]

/-- CRC_COMPUTE as a fold of the byte update over the data. -/
theorem crcCompute_eq_foldl (init : Word16) (data : List Byte) : crcCompute init data = data.foldl crcByte init := by
  rw [crcCompute, crcRun, CrcUnit.foldl_byte_crc]; rfl

end Sys2Proof.Machine
end

