-- ==== Sys2Proof/Laws/State.lean ====
section
/-! SUPPORT. One lemma per field per update of the state, so that no later proof unfolds a record update. -/

namespace Sys2Proof.Machine

variable (s : State) (n : Nat) (c : Conn) (t : Instance)

@[simp] theorem State.setConn_cfg : (s.setConn n c).cfg = s.cfg := rfl
@[simp] theorem State.setConn_registry : (s.setConn n c).registry = s.registry := rfl
@[simp] theorem State.setConn_listener : (s.setConn n c).listener = s.listener := rfl
@[simp] theorem State.setConn_active : (s.setConn n c).active = s.active := rfl
@[simp] theorem State.setConn_schedule : (s.setConn n c).schedule = s.schedule := rfl
@[simp] theorem State.setConn_conns : (s.setConn n c).conns = s.conns.set n c := rfl

@[simp] theorem Instance.endCrc_connState : t.endCrc.connState = t.connState := rfl
@[simp] theorem Instance.endCrc_rxLen : t.endCrc.rxLen = t.rxLen := rfl
@[simp] theorem Instance.endCrc_rx : t.endCrc.rx = t.rx := rfl
@[simp] theorem Instance.endCrc_body : t.endCrc.body = t.body := rfl
@[simp] theorem Instance.endCrc_payload : t.endCrc.payload = t.payload := rfl
@[simp] theorem Instance.endCrc_txLen : t.endCrc.txLen = t.txLen := rfl
@[simp] theorem Instance.endCrc_tx : t.endCrc.tx = t.tx := rfl
@[simp] theorem Instance.endCrc_rejectReason : t.endCrc.rejectReason = t.rejectReason := rfl
@[simp] theorem Instance.endCrc_faultMark : t.endCrc.faultMark = t.faultMark := rfl
@[simp] theorem Instance.endCrc_crcUnit : t.endCrc.crcUnit = none := rfl

variable (e : ErrorKind)

@[simp] theorem Instance.abort_connState : (t.abort e).connState = .closed := rfl
@[simp] theorem Instance.abort_rxLen : (t.abort e).rxLen = t.rxLen := rfl
@[simp] theorem Instance.abort_rx : (t.abort e).rx = t.rx := rfl
@[simp] theorem Instance.abort_body : (t.abort e).body = t.body := rfl
@[simp] theorem Instance.abort_payload : (t.abort e).payload = t.payload := rfl
@[simp] theorem Instance.abort_txLen : (t.abort e).txLen = t.txLen := rfl
@[simp] theorem Instance.abort_tx : (t.abort e).tx = t.tx := rfl
@[simp] theorem Instance.abort_rejectReason : (t.abort e).rejectReason = e.reason := rfl
@[simp] theorem Instance.abort_faultMark : (t.abort e).faultMark = t.faultMark := rfl
@[simp] theorem Instance.abort_crcUnit : (t.abort e).crcUnit = t.crcUnit := rfl

/-- No error kind records NONE (R112 to R115). -/
theorem ErrorKind.reason_ne_none : e.reason ≠ .none := by cases e <;> decide

variable (bytes : List Byte)

@[simp] theorem Instance.loadRx_connState : (t.loadRx bytes).connState = t.connState := rfl
@[simp] theorem Instance.loadRx_rxLen : (t.loadRx bytes).rxLen = bytes.length := rfl
@[simp] theorem Instance.loadRx_rx : (t.loadRx bytes).rx = Memory.writeBytes [] 0 bytes := rfl
@[simp] theorem Instance.loadRx_body : (t.loadRx bytes).body = t.body := rfl
@[simp] theorem Instance.loadRx_payload : (t.loadRx bytes).payload = t.payload := rfl
@[simp] theorem Instance.loadRx_txLen : (t.loadRx bytes).txLen = t.txLen := rfl
@[simp] theorem Instance.loadRx_tx : (t.loadRx bytes).tx = t.tx := rfl
@[simp] theorem Instance.loadRx_rejectReason : (t.loadRx bytes).rejectReason = t.rejectReason := rfl
@[simp] theorem Instance.loadRx_faultMark : (t.loadRx bytes).faultMark = t.faultMark := rfl
@[simp] theorem Instance.loadRx_crcUnit : (t.loadRx bytes).crcUnit = t.crcUnit := rfl

theorem Instance.ready_iff : t.ready = true ↔ t.connState = .processing ∧ t.faultMark = none := by
  simp [Instance.ready]

variable {s n c}

/-- What `updInst` is where the connection exists. -/
theorem State.updInst_of_get (h : s.conns[n]? = some c) (f : Instance → Instance) :
    s.updInst n f = s.setConn n { c with inst := f c.inst } := by
  simp [State.updInst, h]

/-- What `updConn` is where the connection exists. -/
theorem State.updConn_of_get (h : s.conns[n]? = some c) (f : Conn → Conn) :
    s.updConn n f = s.setConn n (f c) := by
  simp [State.updConn, h]

/-- What `updConn` is where it does not. -/
theorem State.updConn_of_none (h : s.conns[n]? = none) (f : Conn → Conn) : s.updConn n f = s := by
  simp [State.updConn, h]

end Sys2Proof.Machine
end

