-- ==== Sys2Proof/Laws/Memory.lean ====
section
/-! SUPPORT. The laws of the byte spaces: a read after a write, the canonical form, and what a space written from
offset 0 holds. -/

namespace Sys2Proof.Machine

theorem Memory.readByte_writeByte_self (m : Memory) (x : Nat) (v : Byte) :
    (m.writeByte x v).readByte x = some v := by
  induction m with
  | nil => simp [Memory.writeByte, Memory.readByte]
  | cons e m ih =>
    obtain ⟨a, b⟩ := e
    simp only [Memory.writeByte]
    split
    · simp [Memory.readByte]
    · split
      · simp_all [Memory.readByte]
      · rename_i _ hne
        simp [Memory.readByte, hne, ih]

theorem Memory.readByte_writeByte_of_ne (m : Memory) {x y : Nat} (v : Byte) (h : y ≠ x) :
    (m.writeByte x v).readByte y = m.readByte y := by
  induction m with
  | nil => simp [Memory.writeByte, Memory.readByte, h]
  | cons e m ih =>
    obtain ⟨a, b⟩ := e
    simp only [Memory.writeByte]
    split
    · simp [Memory.readByte, h]
    · split
      · rename_i _ hx
        subst hx
        simp [Memory.readByte, h]
      · simp [Memory.readByte, ih]

/-- A byte outside the written addresses reads as before. -/
theorem Memory.readByte_writeBytes_of_outside (bs : List Byte) (m : Memory) (a y : Nat)
    (h : y < a ∨ a + bs.length ≤ y) : (m.writeBytes a bs).readByte y = m.readByte y := by
  induction bs generalizing m a with
  | nil => rfl
  | cons b bs ih =>
    rw [Memory.writeBytes, ih _ _ (by simp at h; omega), Memory.readByte_writeByte_of_ne _ _ (by simp at h; omega)]

/-- A written byte reads as written. -/
theorem Memory.readByte_writeBytes (bs : List Byte) (m : Memory) (a i : Nat) (h : i < bs.length) :
    (m.writeBytes a bs).readByte (a + i) = bs[i]? := by
  induction bs generalizing m a i with
  | nil => simp at h
  | cons b bs ih =>
    rw [Memory.writeBytes]
    cases i with
    | zero => simp [Memory.readByte_writeBytes_of_outside, Memory.readByte_writeByte_self]
    | succ i =>
      have := ih (m.writeByte a b) (a + 1) i (by simpa using h)
      rw [show a + (i + 1) = a + 1 + i by omega, this]
      simp

/-- A range of bytes reads as a list exactly when each of its bytes does. -/
theorem Memory.readBytes_eq_some (m : Memory) (a : Nat) (bs : List Byte)
    (h : ∀ i, i < bs.length → m.readByte (a + i) = bs[i]?) : m.readBytes a bs.length = some bs := by
  induction bs generalizing a with
  | nil => rfl
  | cons b bs ih =>
    have h0 := h 0 (by simp)
    have hr := ih (a + 1) (fun i hi => by
      have := h (i + 1) (by simpa using hi)
      rw [show a + 1 + i = a + (i + 1) by omega, this]
      simp)
    simp at h0
    simp [Memory.readBytes, h0, hr]

theorem Memory.readBytes_congr (m m' : Memory) (a n : Nat)
    (h : ∀ i, i < n → m.readByte (a + i) = m'.readByte (a + i)) : m.readBytes a n = m'.readBytes a n := by
  induction n generalizing a with
  | zero => rfl
  | succ n ih =>
    have h0 := h 0 (by omega)
    have hr := ih (a + 1) (fun i hi => by
      have := h (i + 1) (by omega)
      rwa [show a + (i + 1) = a + 1 + i by omega] at this)
    simp only [Nat.add_zero] at h0
    simp [Memory.readBytes, h0, hr]

theorem Memory.readBytes_length {m : Memory} {a n : Nat} {bs : List Byte} (h : m.readBytes a n = some bs) :
    bs.length = n := by
  induction n generalizing a bs with
  | zero => simp [Memory.readBytes] at h; simp [← h]
  | succ n ih =>
    simp only [Memory.readBytes] at h
    split at h
    · rename_i b bs' _ h2
      simp only [Option.some.injEq] at h
      simp [← h, ih h2]
    · cases h

/-! ### The canonical form -/

theorem Memory.wf_writeByte_aux (m : Memory) (x : Nat) (v : Byte) (h : m.wf = true) :
    (m.writeByte x v).wf = true ∧
      ((m.writeByte x v).head?.map Prod.fst = some x ∨ (m.writeByte x v).head?.map Prod.fst = m.head?.map Prod.fst) := by
  induction m with
  | nil => simp [Memory.writeByte, Memory.wf]
  | cons e m ih =>
    obtain ⟨a, b⟩ := e
    simp only [Memory.writeByte]
    split
    · rename_i hlt
      simp [Memory.wf, hlt, h]
    · split
      · rename_i _ hx
        subst hx
        cases m <;> simp_all [Memory.wf]
      · rename_i h1 h2
        refine ⟨?_, by simp⟩
        have hm : Memory.wf m = true := by cases m <;> simp_all [Memory.wf]
        obtain ⟨hw, hh⟩ := ih hm
        cases hq : Memory.writeByte m x v with
        | nil => simp [Memory.wf]
        | cons f q =>
          rw [hq] at hw hh
          simp only [Memory.wf, hw, Bool.and_true, decide_eq_true_eq]
          simp only [List.head?_cons, Option.map_some, Option.some.injEq] at hh
          rcases hh with hh | hh
          · omega
          · cases m with
            | nil => simp at hh
            | cons g m =>
              simp only [List.head?_cons, Option.map_some, Option.some.injEq] at hh
              simp only [Memory.wf, Bool.and_eq_true, decide_eq_true_eq] at h
              omega

/-- A write of one byte keeps the canonical form. -/
theorem Memory.wf_writeByte (m : Memory) (x : Nat) (v : Byte) (h : m.wf = true) : (m.writeByte x v).wf = true :=
  (m.wf_writeByte_aux x v h).1

/-- A write of a byte sequence keeps the canonical form. -/
theorem Memory.wf_writeBytes (bs : List Byte) (m : Memory) (a : Nat) (h : m.wf = true) :
    (m.writeBytes a bs).wf = true := by
  induction bs generalizing m a with
  | nil => exact h
  | cons b bs ih => exact ih _ _ (m.wf_writeByte a b h)

/-- The reset spaces are in canonical form. -/
theorem Instance.reset_wf : Instance.reset.rx.wf = true ∧ Instance.reset.tx.wf = true := by decide

/-- Every space of the machine after reset is in canonical form: no connection exists, so there is none. -/
theorem State.reset_wf : ∀ c ∈ State.reset.conns, c.inst.rx.wf = true ∧ c.inst.tx.wf = true := by
  intro c hc; cases hc

/-- The host's read keeps RX in canonical form. -/
theorem Instance.loadRx_wf (t : Instance) (bytes : List Byte) : (t.loadRx bytes).rx.wf = true :=
  Memory.wf_writeBytes bytes [] 0 rfl

/-! ### A space written from offset 0 -/

/-- A write just past a space that holds offsets 0 to `len - 1` extends it. -/
theorem Memory.writeByte_append (m : Memory) (x : Nat) (v : Byte) (h : ∀ e ∈ m, e.1 < x) :
    m.writeByte x v = m ++ [(x, v)] := by
  induction m with
  | nil => rfl
  | cons e m ih =>
    obtain ⟨a, b⟩ := e
    have ha := h (a, b) (by simp)
    simp only [Memory.writeByte]
    rw [if_neg (by simp at ha; omega), if_neg (by simp at ha; omega), ih (fun e he => h e (by simp [he]))]
    rfl

theorem Memory.exactly_writeBytes (bs : List Byte) (m : Memory) (len : Nat)
    (h : m.map Prod.fst = List.range len) :
    (m.writeBytes len bs).map Prod.fst = List.range (len + bs.length) := by
  induction bs generalizing m len with
  | nil => simpa [Memory.writeBytes] using h
  | cons b bs ih =>
    have hlt : ∀ e ∈ m, e.1 < len := fun e he => by
      have : e.1 ∈ m.map Prod.fst := List.mem_map_of_mem he
      rw [h] at this
      simpa using this
    rw [Memory.writeBytes, Memory.writeByte_append m len b hlt, ih _ (len + 1) (by simp [h, List.range_succ])]
    rw [List.length_cons]
    congr 1
    omega

/-- A space that holds exactly offsets 0 to `len - 1` has every byte below `len`. -/
theorem Memory.readByte_isSome (m : Memory) (x : Nat) (h : x ∈ m.map Prod.fst) : (m.readByte x).isSome := by
  induction m with
  | nil => simp at h
  | cons e m ih =>
    obtain ⟨a, b⟩ := e
    simp only [Memory.readByte]
    split
    · rfl
    · rename_i hne
      exact ih (by simpa [hne] using h)

theorem Memory.readBytes_isSome (m : Memory) (a n : Nat) (h : ∀ i, i < n → (m.readByte (a + i)).isSome) :
    (m.readBytes a n).isSome := by
  induction n generalizing a with
  | zero => rfl
  | succ n ih =>
    have h0 := h 0 (by omega)
    have hr := ih (a + 1) (fun i hi => by
      have := h (i + 1) (by omega)
      rwa [show a + (i + 1) = a + 1 + i by omega] at this)
    simp only [Nat.add_zero] at h0
    obtain ⟨b, hb⟩ := Option.isSome_iff_exists.1 h0
    obtain ⟨bs, hbs⟩ := Option.isSome_iff_exists.1 hr
    simp [Memory.readBytes, hb, hbs]

/-- Within the length of a buffer that holds what its length says, `MemRead` is defined. -/
theorem Instance.memRead_isSome (t : Instance) (addr n : Nat) (h : t.rx.map Prod.fst = List.range t.rxLen)
    (hn : addr + n ≤ t.rxLen) : (t.memRead addr n).isSome := by
  rw [Instance.memRead, if_pos hn]
  refine Memory.readBytes_isSome _ _ _ (fun i hi => Memory.readByte_isSome _ _ ?_)
  rw [h, List.mem_range]
  omega

/-- The whole response frame is there to be read in a TX that holds what its length says. -/
theorem Instance.txFrame_isSome (t : Instance) (h : t.tx.map Prod.fst = List.range t.txLen) :
    (t.txFrame).isSome := by
  refine Memory.readBytes_isSome _ _ _ (fun i hi => Memory.readByte_isSome _ _ ?_)
  rw [h, List.mem_range]
  omega

/-- `MemRead` of a buffer the host has read: the bytes delivered at these offsets. -/
theorem Instance.memRead_loadRx (t : Instance) (raw : List Byte) (addr n : Nat) (h : addr + n ≤ raw.length) :
    (t.loadRx raw).memRead addr n = some ((raw.drop addr).take n) := by
  have hlen : ((raw.drop addr).take n).length = n := by simp; omega
  rw [Instance.memRead, if_pos (by simpa using h)]
  have := Memory.readBytes_eq_some (t.loadRx raw).rx addr ((raw.drop addr).take n) (fun i hi => by
    rw [hlen] at hi
    have := Memory.readByte_writeBytes raw [] 0 (addr + i) (by omega)
    rw [Nat.zero_add] at this
    rw [Instance.loadRx_rx, this, List.getElem?_take_of_lt hi, List.getElem?_drop])
  rwa [hlen] at this

end Sys2Proof.Machine
end

