-- ==== Sys2Proof/Laws/Codec.lean ====
section
/-! SUPPORT. The field encodings of R20, what PARSE can answer, and the elements BUILD leaves alone. -/

namespace Sys2Proof.Machine

theorem fromBe16_toNat (h l : Byte) : (fromBe16 h l).toNat = 256 * h.toNat + l.toNat := by
  have hh := h.isLt
  have hl := l.isLt
  simp only [fromBe16, BitVec.toNat_or, BitVec.toNat_shiftLeft, BitVec.toNat_setWidth]
  rw [Nat.mod_eq_of_lt (a := h.toNat) (by omega), Nat.mod_eq_of_lt (a := l.toNat) (by omega), Nat.shiftLeft_eq,
    Nat.mod_eq_of_lt (by omega), ← Nat.shiftLeft_eq, ← Nat.shiftLeft_add_eq_or_of_lt hl, Nat.shiftLeft_eq]
  omega

/-- `be16`, on unsigned integers. -/
theorem be16_eq (v : Word16) : be16 v = [BitVec.ofNat 8 (v.toNat / 256), BitVec.ofNat 8 v.toNat] := by
  simp only [be16, List.cons.injEq, and_true]
  constructor
  · apply BitVec.eq_of_toNat_eq
    simp [BitVec.toNat_setWidth, Nat.shiftRight_eq_div_pow]
  · apply BitVec.eq_of_toNat_eq
    simp [BitVec.toNat_setWidth]

@[simp] theorem be16_length (v : Word16) : (be16 v).length = 2 := rfl

@[simp] theorem beWidth_length (w : RespLenWidth) (v : Nat) : (beWidth w v).length = w.bytes := by
  cases w <;> rfl

@[simp] theorem header_length : header.length = 3 := rfl

@[simp] theorem reqFrame_length (cfg : Config) (p : List Byte) : (reqFrame cfg p).length = 7 + p.length := by
  simp [reqFrame]; omega

@[simp] theorem rspFrame_length (cfg : Config) (p : List Byte) :
    (rspFrame cfg p).length = 5 + cfg.respLenWidth.bytes + p.length := by
  simp [rspFrame]; omega

/-- A 2-byte field of a buffer the host has read. -/
theorem Instance.be16Field_loadRx (t : Instance) (raw : List Byte) (addr : Nat) (h : addr + 2 ≤ raw.length) :
    (t.loadRx raw).be16Field addr = some (fromBe16 (raw.getD addr 0) (raw.getD (addr + 1) 0)) := by
  have h0 : addr < raw.length := by omega
  have h1 : addr + 1 < raw.length := by omega
  have : (raw.drop addr).take 2 = [raw.getD addr 0, raw.getD (addr + 1) 0] := by
    rw [List.drop_eq_getElem_cons h0, List.drop_eq_getElem_cons h1, List.take_succ_cons, List.take_succ_cons,
      List.take_zero, List.getD_eq_getElem _ _ h0, List.getD_eq_getElem _ _ h1]
  rw [Instance.be16Field, Instance.memRead_loadRx _ _ _ _ h, this]

/-- A 2-byte field inside a buffer that holds what its length says has a value. -/
theorem Instance.be16Field_isSome (t : Instance) (addr : Nat) (h : t.rx.map Prod.fst = List.range t.rxLen)
    (hn : addr + 2 ≤ t.rxLen) : (t.be16Field addr).isSome := by
  obtain ⟨bs, hbs⟩ := Option.isSome_iff_exists.1 (t.memRead_isSome addr 2 h hn)
  have hlen : bs.length = 2 := by
    rw [Instance.memRead, if_pos hn] at hbs
    exact Memory.readBytes_length hbs
  match bs, hlen with
  | [a, b], _ => simp [Instance.be16Field, hbs]

/-- PARSE never faults on a buffer that holds what its length says (R33, R80). -/
theorem Instance.parse_ne_fault (cfg : Config) (t : Instance) (f : Fault)
    (h : t.rx.map Prod.fst = List.range t.rxLen) : t.parse cfg ≠ .fault f := by
  unfold Instance.parse
  split
  · exact nofun
  rename_i h3
  obtain ⟨hd, hhd⟩ := Option.isSome_iff_exists.1 (t.memRead_isSome 0 3 h (by omega))
  rw [hhd]
  dsimp only
  split
  · exact nofun
  split
  · exact nofun
  rename_i h5
  obtain ⟨len, hlen⟩ := Option.isSome_iff_exists.1 (t.be16Field_isSome 3 h (by omega))
  rw [Instance.lengthField, hlen]
  dsimp only
  unfold Instance.parseBody
  split
  · exact nofun
  rename_i h7
  obtain ⟨body, hb⟩ := Option.isSome_iff_exists.1 (t.memRead_isSome 5 len.toNat h (by omega))
  obtain ⟨ck, hck⟩ := Option.isSome_iff_exists.1 (t.be16Field_isSome (5 + len.toNat) h (by omega))
  rw [Instance.checksumField, hb, hck]
  dsimp only
  split <;> exact nofun

/-- The body PARSE gives is part of the buffer, with 7 other bytes beside it. -/
theorem Instance.parse_ok_length {cfg : Config} {t : Instance} {body : List Byte} (h : t.parse cfg = .ok body) :
    7 + body.length ≤ t.rxLen := by
  unfold Instance.parse Instance.parseBody at h
  split at h
  · cases h
  split at h
  · cases h
  split at h
  · cases h
  split at h
  · cases h
  split at h
  · cases h
  split at h
  · cases h
  rename_i h7
  split at h
  · rename_i b _ hb _
    split at h
    · cases h
    · simp only [OpResult.ok.injEq] at h
      subst h
      unfold Instance.memRead at hb
      split at hb
      · rw [Memory.readBytes_length hb]; omega
      · cases hb
  · cases h

/-- PARSE looks at the request buffer and `CRC_INIT` alone. -/
theorem Instance.parse_congr {cfg cfg' : Config} {t t' : Instance} (hc : cfg.crcInit = cfg'.crcInit)
    (hl : t.rxLen = t'.rxLen) (hr : ∀ a, t.rx.readByte a = t'.rx.readByte a) : t.parse cfg = t'.parse cfg' := by
  have hm : ∀ a n, t.memRead a n = t'.memRead a n := fun a n => by
    rw [Instance.memRead, Instance.memRead, hl, Memory.readBytes_congr _ _ _ _ (fun i _ => hr (a + i))]
  have hb : ∀ a, t.be16Field a = t'.be16Field a := fun a => by rw [Instance.be16Field, Instance.be16Field, hm]
  simp only [Instance.parse, Instance.parseBody, Instance.lengthField, Instance.checksumField, hm, hb, hl, hc]

/-! BUILD's writes leave every element but TX, `tx_len` and the CRC registers alone. -/

@[simp] theorem Instance.writeResponse_connState (cfg : Config) (t : Instance) :
    (t.writeResponse cfg).connState = t.connState := rfl
@[simp] theorem Instance.writeResponse_rxLen (cfg : Config) (t : Instance) :
    (t.writeResponse cfg).rxLen = t.rxLen := rfl
@[simp] theorem Instance.writeResponse_rx (cfg : Config) (t : Instance) : (t.writeResponse cfg).rx = t.rx := rfl
@[simp] theorem Instance.writeResponse_body (cfg : Config) (t : Instance) :
    (t.writeResponse cfg).body = t.body := rfl
@[simp] theorem Instance.writeResponse_payload (cfg : Config) (t : Instance) :
    (t.writeResponse cfg).payload = t.payload := rfl
@[simp] theorem Instance.writeResponse_rejectReason (cfg : Config) (t : Instance) :
    (t.writeResponse cfg).rejectReason = t.rejectReason := rfl
@[simp] theorem Instance.writeResponse_faultMark (cfg : Config) (t : Instance) :
    (t.writeResponse cfg).faultMark = t.faultMark := rfl
@[simp] theorem Instance.writeResponse_crcUnit (cfg : Config) (t : Instance) :
    (t.writeResponse cfg).crcUnit = none := rfl
@[simp] theorem Instance.writeResponse_tx (cfg : Config) (t : Instance) :
    (t.writeResponse cfg).tx = writeFrame cfg t.payload t.tx := rfl
@[simp] theorem Instance.writeResponse_txLen (cfg : Config) (t : Instance) :
    (t.writeResponse cfg).txLen = 5 + cfg.respLenWidth.bytes + t.payload.length := rfl

/-- BUILD of a payload that fits. -/
theorem Instance.build_of_fits {cfg : Config} {t : Instance}
    (h : t.payload.length < 2 ^ (8 * cfg.respLenWidth.bytes)) : t.build cfg = t.writeResponse cfg := by
  rw [Instance.build, if_neg (by omega)]

/-- BUILD changes nothing but TX, the fault mark and the CRC registers. -/
theorem Instance.build_frame (cfg : Config) (t : Instance) :
    t.build cfg = { t with
      tx := (t.build cfg).tx, txLen := (t.build cfg).txLen, faultMark := (t.build cfg).faultMark,
      crcUnit := (t.build cfg).crcUnit } := by
  unfold Instance.build
  split <;> rfl

/-- A payload that fits records no model fault. -/
theorem Instance.build_faultMark (cfg : Config) (t : Instance)
    (h : t.payload.length < 2 ^ (8 * cfg.respLenWidth.bytes)) : (t.build cfg).faultMark = t.faultMark := by
  rw [Instance.build_of_fits h, Instance.writeResponse_faultMark]

/-- The four writes keep the space in canonical form. -/
theorem writeFrame_wf (cfg : Config) (p : List Byte) (tx : Memory) (h : tx.wf = true) :
    (writeFrame cfg p tx).wf = true :=
  Memory.wf_writeBytes _ _ _ (Memory.wf_writeBytes _ _ _ (Memory.wf_writeBytes _ _ _ (Memory.wf_writeBytes _ _ _ h)))

/-- BUILD keeps TX in canonical form. -/
theorem Instance.build_wf (cfg : Config) (t : Instance) (h : t.tx.wf = true) : (t.build cfg).tx.wf = true := by
  unfold Instance.build
  split
  · exact h
  · exact writeFrame_wf cfg t.payload t.tx h

/-- Both payloads of REGISTRY fit both widths of the response length field (R93: the fault is out of reach). -/
theorem registry_payloads_fit (w : RespLenWidth) :
    idPayload.length < 2 ^ (8 * w.bytes) ∧ weightPayload.length < 2 ^ (8 * w.bytes) := by
  cases w <;> decide

end Sys2Proof.Machine
end

