-- ==== Sys2Proof/Laws/PerInstr.lean ====
section
/-! SUPPORT. What holds of every instruction as syntax, one lemma per constructor. -/

namespace Sys2Proof.Laws.RoundTrip

/-- R57, R64: the opcode is one byte, decoding the encoded instruction gives it back with the bytes after the opcode
unread, and the opcode table's word decodes to it. -/
def Statement (i : Instr) : Prop :=
  i.wf = true ∧ encode i = [i.opcode] ∧ (∀ rest, decodeBody (encode i ++ rest) = .ok (i, rest)) ∧
    decodeTableWord 8 i.opcode.toNat = some i

theorem getId : Statement .getId := ⟨rfl, rfl, fun _ => rfl, by decide⟩

theorem getWeight : Statement .getWeight := ⟨rfl, rfl, fun _ => rfl, by decide⟩

end Sys2Proof.Laws.RoundTrip
end

