-- ==== Sys2Proof/Laws/Transaction.lean ====
section
/-! SUPPORT. What a command and PROCESS can do, said once. -/

namespace Sys2Proof.Machine

/-- The instance a DISPATCH of opcode `op` leaves: the entry in PAYLOAD, or aborted. -/
def Instance.dispatched (r : Registry) (op : Byte) (t : Instance) : Instance :=
  match r.lookup op with
  | some e => { t with payload := e }
  | none => t.abort .unknownOpcode

/-- What a command does where PROCESS of an existing connection is under way. -/
theorem exec_of_active {s : State} {n : Nat} {c : Conn} (i : Instr) (ha : s.active = some n)
    (hc : s.conns[n]? = some c) :
    exec i s = .next (s.setConn n { c with inst := c.inst.dispatched s.registry i.opcode }) := by
  have h : s.activeConn = some (n, c) := by simp [State.activeConn, ha, hc]
  cases i <;> simp only [exec, execGetId, execGetWeight, dispatchEntry, h, Instance.dispatched] <;>
    split <;> simp_all

/-- What a command can do: it runs on an existing connection, or it is refused. -/
theorem exec_cases (i : Instr) (s : State) :
    (∃ n c, s.active = some n ∧ s.conns[n]? = some c ∧
      exec i s = .next (s.setConn n { c with inst := c.inst.dispatched s.registry i.opcode })) ∨
    (s.activeConn = none ∧ exec i s = .refused .noInstance) := by
  cases hc : s.activeConn with
  | none =>
    refine .inr ⟨rfl, ?_⟩
    cases i <;> simp [exec, execGetId, execGetWeight, dispatchEntry, hc]
  | some nc =>
    unfold State.activeConn at hc
    split at hc
    · rename_i n hn
      obtain ⟨c, hget, rfl⟩ := Option.map_eq_some_iff.1 hc
      exact .inl ⟨n, c, hn, hget, exec_of_active i hn hget⟩
    · cases hc

/-- The instance DISPATCH of a whole body leaves (R96, R100). -/
def Instance.dispatchedBody (r : Registry) (body : List Byte) (t : Instance) : Instance :=
  match decodeBody body with
  | .ok (i, _) => t.dispatched r i.opcode
  | .error _ => t.abort .unknownOpcode

/-- PROCESS of a ready instance whose request parses: the instance it leaves. -/
def Instance.processed (cfg : Config) (r : Registry) (body : List Byte) (t : Instance) : Instance :=
  ((({ t.endCrc with body := body } : Instance).dispatchedBody r body).finish cfg)

theorem getElem?_set_of_get {α : Type} {l : List α} {n : Nat} {a b : α} (h : l[n]? = some a) :
    (l.set n b)[n]? = some b := by
  rw [List.getElem?_set_self]
  exact (List.getElem?_eq_some_iff.1 h).1

/-- PROCESS of a ready instance whose request parses. -/
theorem process_of_ok {s : State} {n : Nat} {c : Conn} {body : List Byte} (hc : s.conns[n]? = some c)
    (hr : c.inst.ready = true) (hp : c.inst.parse s.cfg = .ok body) :
    process n s = .next { s.setConn n { c with inst := c.inst.processed s.cfg s.registry body } with
      active := none } := by
  simp only [process, hc, hr, if_true, hp]
  have hd : s.dispatching n body
      = { s.setConn n { c with inst := { c.inst.endCrc with body := body } } with active := some n } := by
    rw [State.dispatching, State.updInst_of_get hc]
  have hget : (s.dispatching n body).conns[n]?
      = some { c with inst := { c.inst.endCrc with body := body } } := by
    rw [hd]; exact getElem?_set_of_get hc
  have hdb : dispatchBody n body (s.dispatching n body)
      = .next ((s.dispatching n body).setConn n { c with
          inst := ({ c.inst.endCrc with body := body } : Instance).dispatchedBody s.registry body }) := by
    unfold dispatchBody Instance.dispatchedBody
    cases decodeBody body with
    | ok d =>
      obtain ⟨i, rest⟩ := d
      dsimp only
      rw [exec_of_active i (by rw [hd]) hget]
      simp [hd]
    | error e =>
      dsimp only
      rw [State.updInst_of_get hget]
  rw [hdb, finishOutcome]
  congr 1
  have hget2 : ((s.dispatching n body).setConn n { c with
          inst := ({ c.inst.endCrc with body := body } : Instance).dispatchedBody s.registry body }).conns[n]?
      = some { c with
          inst := ({ c.inst.endCrc with body := body } : Instance).dispatchedBody s.registry body } :=
    getElem?_set_of_get hget
  have hact : ((s.dispatching n body).setConn n { c with
      inst := ({ c.inst.endCrc with body := body } : Instance).dispatchedBody s.registry body }).active
      = some n := by rw [hd]; rfl
  rw [State.finishActive, hact]
  dsimp only
  rw [State.updInst_of_get hget2]
  simp [State.setConn, hd, Instance.processed, List.set_set]

/-- PROCESS of a ready instance whose request does not parse. -/
theorem process_of_err {s : State} {n : Nat} {c : Conn} {e : ErrorKind} (hc : s.conns[n]? = some c)
    (hr : c.inst.ready = true) (hp : c.inst.parse s.cfg = .err e) :
    process n s = .next (s.setConn n { c with inst := c.inst.endCrc.abort e }) := by
  simp only [process, hc, hr, if_true, hp]
  rw [State.updInst_of_get hc]

/-- What PROCESS can do on the one instance it concerns, where it answers a next state. -/
inductive ProcessMove (cfg : Config) (r : Registry) (t : Instance) : Instance → Prop
  /-- It is not enabled. -/
  | notReady (h : t.ready = false) : ProcessMove cfg r t t
  /-- PARSE raises an error, and the abort is taken (R107). -/
  | aborted (e : ErrorKind) (hr : t.ready = true) (h : t.parse cfg = .err e) :
      ProcessMove cfg r t (t.endCrc.abort e)
  /-- PARSE succeeds, and DISPATCH and BUILD follow (R105). -/
  | processed (body : List Byte) (hr : t.ready = true) (h : t.parse cfg = .ok body) :
      ProcessMove cfg r t (t.processed cfg r body)

/-- Everything PROCESS can do. -/
theorem process_cases {n : Nat} {s s' : State} (h : process n s = .next s') :
    (s.conns[n]? = none ∧ s' = s) ∨
    ∃ c t', s.conns[n]? = some c ∧ ProcessMove s.cfg s.registry c.inst t' ∧
      (s' = s.setConn n { c with inst := t' } ∨ s' = { s.setConn n { c with inst := t' } with active := none }) := by
  cases hc : s.conns[n]? with
  | none => simp [process, hc] at h; exact .inl ⟨rfl, h.symm⟩
  | some c =>
    refine .inr ⟨c, ?_⟩
    cases hr : c.inst.ready with
    | false =>
      simp [process, hc, hr] at h
      refine ⟨c.inst, rfl, .notReady hr, .inl ?_⟩
      rw [← h, State.setConn]
      simp [List.getElem?_eq_some_iff.1 hc |>.choose_spec ▸ List.set_getElem_self _]
    | true =>
      cases hp : c.inst.parse s.cfg with
      | ok body =>
        rw [process_of_ok hc hr hp] at h
        exact ⟨_, rfl, .processed body hr hp, .inr (Host.Outcome.next.inj h).symm⟩
      | err e =>
        rw [process_of_err hc hr hp] at h
        exact ⟨_, rfl, .aborted e hr hp, .inl (Host.Outcome.next.inj h).symm⟩
      | fault f => simp [process, hc, hr, hp] at h

/-- The end of PROCESS for an instance DISPATCH has left in Processing with a payload that fits. -/
theorem Instance.finish_of_fits {cfg : Config} {t : Instance} (hp : t.connState = .processing)
    (hf : t.faultMark = none) (h : t.payload.length < 2 ^ (8 * cfg.respLenWidth.bytes)) :
    t.finish cfg = { t.writeResponse cfg with connState := .writing } := by
  simp only [Instance.finish, hp, if_true, Instance.build_of_fits h, Instance.writeResponse_faultMark, hf]

/-- The end of PROCESS changes no element but `conn_state`, TX, the fault mark and the CRC registers. -/
theorem Instance.finish_frame (cfg : Config) (t : Instance) :
    (t.finish cfg).rxLen = t.rxLen ∧ (t.finish cfg).rx = t.rx ∧ (t.finish cfg).body = t.body ∧
      (t.finish cfg).payload = t.payload ∧ (t.finish cfg).rejectReason = t.rejectReason := by
  unfold Instance.finish
  split
  · rw [Instance.build_frame]
    dsimp only
    split <;> exact ⟨rfl, rfl, rfl, rfl, rfl⟩
  · exact ⟨rfl, rfl, rfl, rfl, rfl⟩

/-- The ways PROCESS of a request that parses can leave its instance: aborted, or what `finish` makes of the payload. -/
theorem Instance.processed_cases (cfg : Config) (r : Registry) (body : List Byte) (t : Instance) :
    t.processed cfg r body = ({ t.endCrc with body := body } : Instance).abort .unknownOpcode ∨
    ∃ i rest e, decodeBody body = .ok (i, rest) ∧ r.lookup i.opcode = some e ∧
      t.processed cfg r body = ({ t.endCrc with body := body, payload := e } : Instance).finish cfg := by
  unfold Instance.processed Instance.dispatchedBody
  split
  · rename_i i rest hd
    unfold Instance.dispatched
    split
    · rename_i e he
      exact .inr ⟨i, rest, e, hd, he, rfl⟩
    · exact .inl (by simp [Instance.finish])
  · exact .inl (by simp [Instance.finish])

end Sys2Proof.Machine
end

