-- ==== Sys2Proof/Laws/Step.lean ====
section
/-! SUPPORT. Everything a step can do, said once: one move of at most one connection, or a new connection, or the
listener's start. Every invariant is a case analysis over it. -/

namespace Sys2Proof.Machine

/-- What a step can do to the one connection it is about. -/
inductive ConnMove (cfg : Config) (r : Registry) (c : Conn) : Conn → Prop
  /-- Nothing: the action is not enabled there. -/
  | stay : ConnMove cfg r c c
  /-- The client sends bytes. -/
  | sent (bytes : List Byte) : ConnMove cfg r c { c with sent := c.sent ++ bytes }
  /-- The client closes its side. -/
  | clientClosed : ConnMove cfg r c { c with clientClosed := true }
  /-- R127: the one read. -/
  | read (k : Nat) (h : c.readReturns = true) :
      ConnMove cfg r c { c with
        inst := { c.inst.loadRx (c.sent.take (readLength cfg c.sent k)) with connState := .processing }
        sent := c.sent.drop (readLength cfg c.sent k) }
  /-- R128: PROCESS. -/
  | process (t : Instance) (h : ProcessMove cfg r c.inst t) : ConnMove cfg r c { c with inst := t }
  /-- R129, R133: the write, of which some front part reaches the client. -/
  | write (frame out : List Byte) (hw : c.inst.connState = .writing) (hf : c.inst.txFrame = some frame)
      (ho : out <+: frame) : ConnMove cfg r c (c.closeWriting out)
  /-- R130: the release. -/
  | release (h : c.inst.connState = .closed) : ConnMove cfg r c { c with released := true }

/-- What a step can do to the machine, apart from taking its action off the schedule. -/
inductive StepMove (s : State) : State → Prop
  /-- Nothing. -/
  | stay : StepMove s s
  /-- R143: the listener is started. -/
  | listen : StepMove s (hostListen s)
  /-- R126: a connection is accepted. -/
  | accept (p : Nat) (h : s.listener = some p) : StepMove s { s with conns := s.conns ++ [Conn.reset] }
  /-- One connection moves. -/
  | conn (n : Nat) (c c' : Conn) (hc : s.conns[n]? = some c) (h : ConnMove s.cfg s.registry c c') :
      StepMove s (s.setConn n c')
  /-- One connection moves by PROCESS, after which none is being executed. -/
  | processed (n : Nat) (c c' : Conn) (hc : s.conns[n]? = some c) (h : ConnMove s.cfg s.registry c c') :
      StepMove s { s.setConn n c' with active := none }

theorem StepMove.of_process {n : Nat} {s s' : State} (h : process n s = .next s') : StepMove s s' := by
  rcases process_cases h with ⟨_, rfl⟩ | ⟨c, t, hc, hm, rfl | rfl⟩
  · exact .stay
  · exact .conn n c _ hc (.process t hm)
  · exact .processed n c _ hc (.process t hm)

theorem StepMove.of_updConn {n : Nat} {s : State} {f : Conn → Conn}
    (h : ∀ c, ConnMove s.cfg s.registry c (f c)) : StepMove s (s.updConn n f) := by
  cases hc : s.conns[n]? with
  | none => rw [State.updConn_of_none hc]; exact .stay
  | some c => rw [State.updConn_of_get hc]; exact .conn n c _ hc (h c)

theorem ConnMove.clientSend (cfg : Config) (r : Registry) (c : Conn) (bytes : List Byte) :
    ConnMove cfg r c (c.clientSend bytes) := by
  unfold Conn.clientSend
  split
  · exact .stay
  · exact .sent bytes

theorem ConnMove.hostRead (cfg : Config) (r : Registry) (c : Conn) (k : Nat) : ConnMove cfg r c (c.read cfg k) := by
  unfold Conn.read
  split
  · rename_i h; exact .read k h
  · exact .stay

theorem ConnMove.hostRelease (cfg : Config) (r : Registry) (c : Conn) : ConnMove cfg r c c.release := by
  unfold Conn.release
  split
  · rename_i h; exact .release h
  · exact .stay

theorem StepMove.of_hostWrite {n : Nat} {f : List Byte → List Byte} {s s' : State} (hf : ∀ l, f l <+: l)
    (h : hostWrite n f s = .next s') : StepMove s s' := by
  unfold hostWrite at h
  split at h
  · cases h; exact .stay
  · rename_i c hc
    split at h
    · rename_i hw
      split at h
      · rename_i frame hfr
        cases h
        exact .conn n c _ hc (.write frame _ hw hfr (hf frame))
      · cases h
    · cases h; exact .stay

/-- Everything an action of the schedule can do. -/
theorem StepMove.of_perform {a : HostAction} {s s' : State} (h : perform a s = .next s') : StepMove s s' := by
  cases a with
  | listen => cases h; exact .listen
  | accept =>
    cases h
    unfold hostAccept
    split
    · rename_i p hp; exact .accept p hp
    · exact .stay
  | clientSend n bytes => cases h; exact .of_updConn (fun c => .clientSend _ _ c bytes)
  | clientClose n => cases h; exact .of_updConn (fun c => .clientClosed)
  | read n k => cases h; exact .of_updConn (fun c => .hostRead _ _ c k)
  | process n => exact .of_process h
  | write n => exact .of_hostWrite (fun l => List.prefix_rfl) h
  | writeFail n k => exact .of_hostWrite (fun l => List.take_prefix k l) h
  | release n => cases h; exact .of_updConn (fun c => .hostRelease _ _ c)

/-- With a connection ready, the machine's own work is its PROCESS. -/
theorem State.idleAction_of_ready {s : State} {n : Nat} (h : s.readyConn = some n) :
    s.idleAction = some (.process n) := by
  simp [State.idleAction, h]

/-- With no connection ready, the machine's own work is the release of a closed one, if there is one. -/
theorem State.idleAction_of_not_ready {s : State} (h : s.readyConn = none) :
    s.idleAction = s.unreleasedConn.map HostAction.release := by
  simp [State.idleAction, h]

/-- The machine has no work of its own exactly when no connection is ready and every closed one is released. -/
theorem State.idleAction_eq_none {s : State} :
    s.idleAction = none ↔ ∀ c ∈ s.conns, c.inst.ready = false ∧ c.unreleased = false := by
  simp only [State.idleAction, Option.or_eq_none_iff, Option.map_eq_none_iff, State.readyConn, State.unreleasedConn,
    List.findIdx?_eq_none_iff]
  exact ⟨fun h c hc => ⟨h.1 c hc, h.2 c hc⟩, fun h => ⟨fun c hc => (h c hc).1, fun c hc => (h c hc).2⟩⟩

/-- A step with nothing pending, where the machine has work of its own. -/
theorem step_of_idleAction {s : State} {a : HostAction} (hs : s.schedule = []) (h : s.idleAction = some a) :
    step s = perform a s := by
  simp only [step, hs, idle, h]

/-- A step with nothing pending and no work of the machine's own: it waits. -/
theorem step_of_waiting {s : State} (hs : s.schedule = []) (h : s.idleAction = none) : step s = .next s := by
  simp only [step, hs, idle, h]

/-- Everything a step can do: `r` is what is left of the schedule. -/
theorem step_cases {s s' : State} (h : step s = .next s') :
    ∃ r, (s.schedule = r ∨ ∃ a, s.schedule = a :: r) ∧ StepMove { s with schedule := r } s' := by
  unfold step at h
  split at h
  · rename_i hs
    refine ⟨[], .inl hs, ?_⟩
    have hs' : ({ s with schedule := [] } : State) = s := by rw [← hs]
    rw [hs']
    unfold idle at h
    split at h
    · exact .of_perform h
    · cases h; exact .stay
  · rename_i a rest hs
    exact ⟨rest, .inr ⟨a, hs⟩, .of_perform h⟩

/-- What a step does to one connection: it stays in its place and makes one of its moves. -/
theorem step_conn {s s' : State} {n : Nat} {c : Conn} (h : step s = .next s') (hc : s.conns[n]? = some c) :
    ∃ c', s'.conns[n]? = some c' ∧ ConnMove s.cfg s.registry c c' := by
  obtain ⟨r, _, hm⟩ := step_cases h
  have key : ∀ (m : Nat) (d d' : Conn), s.conns[m]? = some d → ConnMove s.cfg s.registry d d' →
      ∃ c', (s.conns.set m d')[n]? = some c' ∧ ConnMove s.cfg s.registry c c' := by
    intro m d d' hd hmv
    by_cases hmn : m = n
    · subst hmn
      rw [hc] at hd
      cases hd
      exact ⟨d', getElem?_set_of_get hc, hmv⟩
    · exact ⟨c, by rw [List.getElem?_set_ne hmn, hc], .stay⟩
  cases hm with
  | stay => exact ⟨c, hc, .stay⟩
  | listen => exact ⟨c, hc, .stay⟩
  | accept p _ =>
    exact ⟨c, by rw [List.getElem?_append_left (List.getElem?_eq_some_iff.1 hc).1]; exact hc, .stay⟩
  | conn m d d' hd hmv => exact key m d d' hd hmv
  | processed m d d' hd hmv => exact key m d d' hd hmv

/-- Where a connection of the next state comes from: it is new, or it is one of the old ones after a move. -/
theorem step_conn_origin {s s' : State} {d : Conn} (h : step s = .next s') (hd : d ∈ s'.conns) :
    d = Conn.reset ∨ ∃ c ∈ s.conns, ConnMove s.cfg s.registry c d := by
  obtain ⟨r, _, hm⟩ := step_cases h
  have key : ∀ (m : Nat) (c c' : Conn), s.conns[m]? = some c → ConnMove s.cfg s.registry c c' →
      d ∈ s.conns.set m c' → ∃ c ∈ s.conns, ConnMove s.cfg s.registry c d := by
    intro m c c' hc hmv hin
    rcases List.mem_or_eq_of_mem_set hin with hin | rfl
    · exact ⟨d, hin, .stay⟩
    · exact ⟨c, List.mem_of_getElem? hc, hmv⟩
  cases hm with
  | stay => exact .inr ⟨d, hd, .stay⟩
  | listen => exact .inr ⟨d, hd, .stay⟩
  | accept p _ =>
    rcases List.mem_append.1 hd with hd | hd
    · exact .inr ⟨d, hd, .stay⟩
    · exact .inl (by simpa using hd)
  | conn m c c' hc hmv => exact .inr (key m c c' hc hmv hd)
  | processed m c c' hc hmv => exact .inr (key m c c' hc hmv hd)

end Sys2Proof.Machine
end

