-- ==== Sys2Proof/Tests/Slice0.lean ====
section
/-! SUPPORT. Tests against the words, vectors and programs of the spec (spec/30_encoding.md, spec/95_test_vectors.md),
and a witness for the premises of every statement that has premises. -/

namespace Sys2Proof.Tests

open Sys2Proof.Machine

/-! ### Well-formedness: each check refuses an ill-formed term -/

theorem test_wf_req_refuses_overlong : (FrameForm.req (List.replicate 65536 0)).wf .one = false := by
  rw [FrameForm.wf, List.length_replicate]; decide

theorem test_wf_rsp_refuses_overlong :
    (FrameForm.rsp (List.replicate 256 0)).wf .one = false ∧ (FrameForm.rsp (List.replicate 256 0)).wf .two = true := by
  rw [FrameForm.wf, FrameForm.wf, List.length_replicate]; decide

theorem test_memory_wf_refuses_unsorted : Memory.wf [(1, 0), (0, 0)] = false ∧ Memory.wf [(1, 0), (1, 0)] = false := by
  decide

/-! ### Decoding (30_encoding R64, written out bit by bit) -/

theorem test_decode_getId : decodeBody [0b10010000#8] = .ok (.getId, []) := by decide

theorem test_decode_getWeight : decodeBody [0b10100000#8, 0xFF#8] = .ok (.getWeight, [0xFF#8]) := by decide

/-- R99: the near misses of the rule. -/
theorem test_decode_near_misses :
    [0x91#8, 0x80#8, 0xB0#8, 0x10#8, 0x50#8].map decodeOpcode = [none, none, none, none, none] := by decide

/-! ### The ChecksumEngine (95_test_vectors V1, V2) -/

/-- V1, both columns. -/
theorem test_crc_vectors :
    crcCompute 0x0000#16 [0x90#8] = 0x83B9#16 ∧ crcCompute 0x0000#16 [0xA0#8] = 0xB5EA#16 ∧
    crcCompute 0x0000#16 [0xFF#8, 0xFF#8] = 0x1D0F#16 ∧ crcCompute 0x0000#16 [0x90#8, 0x00#8] = 0x18EB#16 ∧
    crcCompute 0x1D0F#16 [0x90#8] = 0x4F25#16 ∧ crcCompute 0x1D0F#16 [0x00#8] = 0xCC9C#16 := by decide +kernel

theorem test_crc_check_value :
    crcCompute 0x0000#16 [0x31#8, 0x32#8, 0x33#8, 0x34#8, 0x35#8, 0x36#8, 0x37#8, 0x38#8, 0x39#8] = 0x31C3#16 := by
  decide +kernel

/-- V2, row 3 of byte `0x90`. -/
theorem test_crc_iter_row :
    (CrcUnit.iter { crc := 0x4084, sh := 0x80, cnt := 2, fb := false } 3)
      = { crc := 0x9129, sh := 0x00, cnt := 3, fb := true } := by decide +kernel

/-! ### The transaction (95_test_vectors V6, V9) -/

/-- The state an action answers, if it answers one. -/
def nextOf : Host.Outcome State Fault Refusal → Option State
  | .next s => some s
  | .fault _ => none
  | .refused _ => none

/-- A machine with one connection, whose read has delivered these bytes. -/
def holding (raw : List Byte) (acts : List HostAction) : State :=
  { State.reset with
    conns := [{ Conn.reset with inst := { Instance.reset.loadRx raw with connState := .processing } }]
    schedule := acts }

/-- What a client and the host's log can see of every connection. -/
def seen (s : State) : List (ConnState × Option (List Byte) × RejectReason) :=
  s.conns.map (fun c => (c.inst.connState, c.inst.txFrame, c.inst.rejectReason))

/-- 30_encoding R68: `REQ(GET_ID)`. -/
def idRequest : List Byte := [0xF8, 0x55, 0xCE, 0x00, 0x01, 0x90, 0x83, 0xB9]

/-- 30_encoding R68: `RSP(50 31 32 33 34)`. -/
def idResponse : List Byte := [0xF8, 0x55, 0xCE, 0x05, 0x50, 0x31, 0x32, 0x33, 0x34, 0xC2, 0xBB]

/-- 30_encoding R68: `RSP(10 00 00 00 00 03)`. -/
def weightResponse : List Byte := [0xF8, 0x55, 0xCE, 0x06, 0x10, 0x00, 0x00, 0x00, 0x00, 0x03, 0x2A, 0xE7]

/-- V9 row 1, through `withFetchWord`: the table's word runs as the first instruction after reset. -/
theorem test_getId_runs :
    (nextOf (step (State.reset.withFetchWord 8 0x90))).map seen = some [(.writing, some idResponse, .none)] := by
  decide +kernel

theorem test_getWeight_runs :
    (nextOf (step (State.reset.withFetchWord 8 0xA0))).map seen = some [(.writing, some weightResponse, .none)] := by
  decide +kernel

/-- 30_encoding R68: the forms' expansions, and a form that is ill formed expands to nothing. -/
theorem test_assemble :
    assemble hardwareConfig (.req []) = some [0xF8, 0x55, 0xCE, 0x00, 0x00, 0x00, 0x00] ∧
    assemble hardwareConfig (.rsp weightPayload) = some weightResponse ∧
    assemble hardwareConfig (.raw [0x01]) = some [0x01] := by decide +kernel

/-- The frame `withFetchWord` places is the spec's `REQ(GET_ID)`. -/
theorem test_req_frame : reqFrame hardwareConfig [0x90#8] = idRequest := by decide +kernel

/-- V9 row 4: `A0 FF` with its checksum. -/
theorem test_ignored_body_byte :
    (nextOf (step (holding [0xF8, 0x55, 0xCE, 0x00, 0x02, 0xA0, 0xFF, 0x03, 0x8E] []))).map seen
      = some [(.writing, some weightResponse, .none)] := by decide +kernel

/-- V9 row 3: bytes after the frame are ignored. -/
theorem test_trailing_bytes_ignored :
    (nextOf (step (holding [0xF8, 0x55, 0xCE, 0x00, 0x01, 0xA0, 0xB5, 0xEA, 0xDE, 0xAD, 0xBE, 0xEF] []))).map seen
      = some [(.writing, some weightResponse, .none)] := by decide +kernel

/-- How PROCESS of this request buffer rejects it: the code, where TX is empty and the instance is Closed. -/
def rejection (raw : List Byte) : Option (BitVec 3) :=
  match (nextOf (step (holding raw []))).map seen with
  | some [(.closed, some [], r)] => some r.code
  | _ => none

/-- V9 rows 6 to 8, 10 to 12: every error kind. -/
theorem test_errors :
    rejection [0xF8, 0x55, 0xCE, 0x00, 0x01, 0x90, 0x4F, 0x25] = some 2 ∧
    rejection [0xF8, 0x55, 0xCE, 0x00, 0x01, 0x91, 0x93, 0x98] = some 4 ∧
    rejection [0xF8, 0x55, 0xCE, 0x00, 0x00, 0x00, 0x00] = some 4 ∧
    rejection [0xF8, 0x55, 0xCF, 0x00, 0x01, 0x90, 0x83, 0xB9] = some 1 ∧
    rejection [] = some 1 ∧ rejection [0xF8, 0x55, 0xCE, 0x00, 0x02, 0x90] = some 3 := by decide +kernel

/-- V6 rows 7, 10, 11, 13, 16, 18, 19 and 21: the boundaries of the checks. -/
theorem test_parse_boundaries :
    [[0xF8, 0x55], [0xF8, 0x55, 0xCE], [0xF8, 0x55, 0xCE, 0x00], [0xF8, 0x55, 0xCE, 0x00, 0x01, 0x90, 0x83],
      [0xF8, 0x55, 0xCE, 0x00, 0x01, 0x90, 0xB9, 0x83], [0xF8, 0x55, 0xCE, 0x00, 0x00, 0x90, 0x83, 0xB9],
      idResponse, [0xF8, 0x55, 0xCE, 0x00, 0x00, 0x00]].map (fun raw => (Instance.reset.loadRx raw).parse hardwareConfig)
      = [.err .invalidHeader, .err .truncatedFrame, .err .truncatedFrame, .err .truncatedFrame,
          .err .invalidChecksum, .err .invalidChecksum, .err .truncatedFrame, .err .truncatedFrame] := by decide +kernel

/-- L1-1: the source's literal example, at the model alternative `CRC_INIT = 0x1D0F`. -/
theorem test_literal_example_at_alternative :
    let s := holding [0xF8, 0x55, 0xCE, 0x00, 0x01, 0x90, 0x4F, 0x25] []
    (nextOf (step { s with cfg := { s.cfg with crcInit := 0x1D0F } })).map seen
      = some [(.writing, some [0xF8, 0x55, 0xCE, 0x05, 0x50, 0x31, 0x32, 0x33, 0x34, 0x33, 0x75], .none)] := by decide +kernel

/-- V8: BUILD of `00` at width 2. -/
theorem test_build_width_two :
    (({ Instance.reset with payload := [0x00] } : Instance).build { hardwareConfig with respLenWidth := .two }).txFrame
      = some [0xF8, 0x55, 0xCE, 0x00, 0x01, 0x00, 0x00, 0x00] := by decide +kernel

/-- P1: GET_ID from the accept to the release. -/
theorem test_session :
    (nextOf (core.run 7 { State.reset with schedule :=
      [.listen, .accept, .clientSend 0 idRequest, .read 0 100, .process 0, .write 0, .release 0] })).map
        (fun s => s.conns.map (fun c => (c.received, c.inst.connState, c.released)))
      = some [(idResponse, .closed, true)] := by decide +kernel

/-- P7: two instances; each client receives its own response. -/
theorem test_two_instances :
    (nextOf (core.run 11 { State.reset with schedule :=
      [.listen, .accept, .accept, .clientSend 0 idRequest, .clientSend 1 (reqFrame hardwareConfig [0xA0]),
        .read 0 8, .read 1 8, .process 1, .process 0, .write 0, .write 1] })).map
        (fun s => s.conns.map (fun c => c.received))
      = some [idResponse, weightResponse] := by decide +kernel

/-- P6: a short read of a valid request. -/
theorem test_short_read :
    (nextOf (core.run 5 { State.reset with schedule :=
      [.listen, .accept, .clientSend 0 idRequest, .read 0 6, .process 0] })).map seen
      = some [(.closed, some [], .truncatedFrame)] := by decide +kernel

/-- R149: with nothing pending, a rejected request's connection is released with no action of the schedule. -/
theorem test_idle_release :
    (nextOf (core.run 2 (holding [] []))).map (fun s => s.conns.map (fun c => (c.inst.connState, c.released)))
      = some [(.closed, true)] := by decide +kernel

/-! ### Witnesses: concrete states and operands that meet every premise of a statement, at the ends of their ranges -/

/-- A request for the command with opcode `op`, delivered whole, and these actions pending. -/
def requesting (op : Byte) (acts : List HostAction) : State :=
  holding (reqFrame hardwareConfig [op]) acts

/-- The connection of a one-connection machine. -/
def conn0 (s : State) : Conn := (s.conns[0]?).getD Conn.reset

/-- A machine with one connection in the reset state, of which the client has sent `sent`. -/
def reading (sent : List Byte) (gone : Bool) (acts : List HostAction) : State :=
  { State.reset with conns := [{ Conn.reset with sent := sent, clientClosed := gone }], schedule := acts }

/-- A machine whose one connection is in Writing with GET_ID's response. -/
def answering (acts : List HostAction) : State :=
  { State.reset with
    conns := [{ Conn.reset with inst := { Instance.reset.loadRx idRequest with
      connState := .writing, body := [0x90], payload := idPayload, txLen := 11,
      tx := Memory.writeBytes [] 0 idResponse } }]
    schedule := acts }

/-- A machine whose one connection was aborted. -/
def aborted (acts : List HostAction) : State :=
  { State.reset with
    conns := [{ Conn.reset with inst := { Instance.reset with
      connState := .closed, rejectReason := .invalidHeader } }]
    schedule := acts }

/-- The invariant is met in every connection state, not only by the empty machine. -/
theorem witness_inv :
    (reading idRequest false []).Inv ∧ (requesting 0x90 []).Inv ∧ (answering []).Inv ∧ (aborted []).Inv :=
  ⟨by decide +kernel, by decide +kernel, by decide +kernel, by decide +kernel⟩

theorem witness_CrcIterationRound :
    (CrcUnit.mk 0x0000 0x90 0 false).crc = 0x0000#16 ∧ (CrcUnit.mk 0x0000 0x90 0 false).sh = 0x90#8 := ⟨rfl, rfl⟩

theorem witness_CrcByteRunsEightIterations :
    (CrcUnit.mk 0x0000 0x90 0 false).crc = (CrcUnit.mk 0x0000 0x01 7 true).crc := rfl

theorem witness_CrcComputeTakesBytesInOrder :
    (CrcUnit.mk 0x83B9 0x00 7 true).crc = crcCompute 0x0000#16 [0x90#8] := by decide +kernel

theorem witness_CrcIsLinearAtZero : [0x90#8].length = [0xA0#8].length := rfl

theorem witness_SingleBitFlipChangesCrc : 0 < [0x90#8].length ∧ 7 < 8 := by decide

theorem witness_ParseInvertsRequestFrame : (List.replicate 65535 0x00#8).length ≤ 65535 := by
  rw [List.length_replicate]

/-- The ends of both of the statement's ranges of `k`: 0, 2, 3 and 7. -/
theorem witness_PartOfAFrameIsRejected :
    [0x90#8].length ≤ 65535 ∧ ∀ k ∈ [0, 2, 3, 7], k < (reqFrame hardwareConfig [0x90#8]).length := by decide +kernel

theorem witness_BodyBitFlipIsRejected : [0x90#8].length ≤ 65535 ∧ 0 < [0x90#8].length ∧ 7 < 8 := by decide

/-- The least declared length above `MAX_READ - 7`. -/
theorem witness_OverlongLengthIsTruncated :
    (header ++ 0x00#8 :: 0x5E#8 :: []).length ≤ hardwareConfig.maxRead ∧
    hardwareConfig.maxRead - 7 < 256 * (0x00#8).toNat + (0x5E#8).toNat := by decide

/-- Both clauses, at the ends of the width 1 range: 0 and 255 bytes. -/
theorem witness_ResponseReadAsRequest :
    ({ hardwareConfig with respLenWidth := .two } : Config).respLenWidth = .two ∧ idPayload.length ≤ 65535 ∧
    hardwareConfig.respLenWidth = .one ∧ ([] : List Byte).length < 256 ∧ (List.replicate 255 0x00#8).length < 256 :=
  ⟨rfl, by decide, rfl, by decide, by rw [List.length_replicate]; decide⟩

/-- Both clauses, at the boundary of width 1: 255 and 256 bytes. -/
theorem witness_BuildWritesResponseFrame :
    ({ Instance.reset with payload := List.replicate 255 0 } : Instance).payload.length < 2 ^ (8 * RespLenWidth.one.bytes) ∧
    2 ^ (8 * RespLenWidth.one.bytes) ≤ ({ Instance.reset with payload := List.replicate 256 0 } : Instance).payload.length := by
  constructor
  · rw [List.length_replicate]; decide
  · rw [List.length_replicate]; decide

theorem witness_DecodeAgreesWithEncode :
    Instr.getId.wf = true ∧ decodeBody [0x90#8, 0x01#8] = .ok (.getId, [0x01#8]) ∧ 0x91#8 ≠ 0x90#8 ∧ 0x91#8 ≠ 0xA0#8 := by
  decide

/-- For GetIdWritesIdPayload and GetWeightWritesWeightPayload: the state in which DISPATCH runs. -/
theorem witness_command_premises :
    let s := (requesting 0xA0 []).dispatching 0 [0xA0]
    s.active = some 0 ∧ s.conns[0]? = some (conn0 s) ∧ s.registry = registryRom := by decide +kernel

theorem witness_CommandsChangeOnlyPayload :
    let s := (requesting 0x90 []).dispatching 0 [0x90]
    s.registry = registryRom ∧ s.active = some 0 ∧ s.conns[0]? = some (conn0 s) ∧ (nextOf (exec .getId s)).isSome ∧
    (nextOf (exec .getWeight s)).isSome := by decide +kernel

theorem witness_CommandOutsideProcessIsRefused : State.reset.activeConn = none := rfl

/-- Both clauses: the action named by the schedule, and none pending. -/
theorem witness_StepRunsDecodedCommand :
    let s := requesting 0x90 [.process 0]
    let s' := requesting 0x90 []
    s.conns[0]? = some (conn0 s) ∧ (conn0 s).inst.ready = true ∧ (conn0 s).inst.parse s.cfg = .ok [0x90] ∧
    decodeBody [0x90] = .ok (.getId, []) ∧ s.schedule = .process 0 :: [] ∧ s'.conns[0]? = some (conn0 s) ∧
    s'.schedule = [] ∧ s'.readyConn = some 0 := by decide +kernel

/-- Both commands, with an ignored body byte and a trailer. -/
theorem witness_ValidRequestIsAnswered :
    ∀ op ∈ [0x90#8, 0xA0#8],
      let raw := reqFrame hardwareConfig [op, 0xFF] ++ [0xDE]
      let s := holding raw [.process 0]
      s.schedule = .process 0 :: [] ∧ s.conns[0]? = some (conn0 s) ∧ s.registry = registryRom ∧
      (conn0 s).inst = ({ Instance.reset with connState := .processing } : Instance).loadRx raw ∧
      (conn0 s).inst.connState = .processing ∧ (conn0 s).inst.faultMark = none ∧
      (conn0 s).inst.rejectReason = .none := by decide +kernel

/-- Every error kind: PARSE's three, and the two ends of DISPATCH's. -/
theorem witness_ErrorTakesAbortPath :
    let s := holding [] [.process 0]
    s.schedule = .process 0 :: [] ∧ s.conns[0]? = some (conn0 s) ∧ (conn0 s).inst.ready = true ∧
    (conn0 s).inst.parse s.cfg = .err .invalidHeader ∧
    (conn0 (holding header [.process 0])).inst.parse s.cfg = .err .truncatedFrame ∧
    (conn0 (holding (header ++ [0, 0, 0, 1]) [.process 0])).inst.parse s.cfg = .err .invalidChecksum ∧
    (conn0 (holding (header ++ [0, 0, 0, 0]) [.process 0])).inst.parse s.cfg = .ok [] ∧
    (conn0 (requesting 0x91 [.process 0])).inst.parse s.cfg = .ok [0x91] ∧
    [0x91#8].head? ≠ some 0x90#8 ∧ [0x91#8].head? ≠ some 0xA0#8 := by decide +kernel

/-- A second machine, which differs from `requesting 0x90 [.process 0]` in all but the request. -/
def elsewhere : State :=
  let r := requesting 0x90 [.process 1]
  { r with cfg := { r.cfg with maxRead := 50, port := 1 }, conns := Conn.reset :: r.conns }

theorem witness_OutcomeDependsOnRequestAlone_inv : (requesting 0x90 [.process 0]).Inv ∧ elsewhere.Inv :=
  ⟨by decide +kernel, by decide +kernel⟩

theorem witness_OutcomeDependsOnRequestAlone :
    let s := requesting 0x90 [.process 0]
    let r := requesting 0x90 [.process 1]
    let s' := elsewhere
    s.schedule = .process 0 :: [] ∧ s'.schedule = .process 1 :: [] ∧ s.conns[0]? = some (conn0 s) ∧
    s'.conns[1]? = some (conn0 r) ∧ (conn0 r).inst.connState = .processing ∧
    (conn0 s).inst.connState = .processing ∧ (conn0 s).inst.rx = (conn0 r).inst.rx ∧
    (conn0 s).inst.rxLen = (conn0 r).inst.rxLen ∧ s.cfg.crcInit = s'.cfg.crcInit ∧
    s.cfg.respLenWidth = s'.cfg.respLenWidth ∧
    ((nextOf (step s)).bind (fun t => t.conns[0]?)).isSome ∧
    ((nextOf (step s')).bind (fun t => t.conns[1]?)).isSome := by decide +kernel

theorem witness_AcceptCreatesResetInstance :
    let s := { State.reset with listener := some 8000, schedule := [.accept] }
    s.schedule = .accept :: [] ∧ s.listener = some 8000 := by decide

theorem witness_ListenerComesBeforeAccept :
    ({ State.reset with schedule := [.listen] } : State).schedule = .listen :: [] ∧
    ({ State.reset with schedule := [.accept] } : State).schedule = .accept :: [] ∧ State.reset.listener = none := by decide

/-- With bytes sent, and with none but the client's side closed. -/
theorem witness_ReadDeliversFrontOfSent :
    let s := reading idRequest false [.read 0 100]
    let s' := reading [] true [.read 0 0]
    s.schedule = .read 0 100 :: [] ∧ s.conns[0]? = some (conn0 s) ∧ (conn0 s).inst.connState = .reading ∧
    (conn0 s).sent ≠ [] ∧ s'.schedule = .read 0 0 :: [] ∧ s'.conns[0]? = some (conn0 s') ∧
    (conn0 s').inst.connState = .reading ∧ (conn0 s').clientClosed = true := by decide +kernel

theorem witness_SilentClientLeavesReading :
    let s := reading [] false [.read 0 8]
    let s' := reading [] false []
    s.schedule = .read 0 8 :: [] ∧ s.conns[0]? = some (conn0 s) ∧ (conn0 s).sent = [] ∧
    (conn0 s).clientClosed = false ∧ s'.schedule = [] ∧ ∀ c ∈ s'.conns, c.inst.connState = .reading := by
  decide +kernel

theorem witness_EndOfStreamIsInvalidHeader :
    let s := reading [] true [.read 0 8, .process 0]
    s.schedule = .read 0 8 :: .process 0 :: [] ∧ s.conns[0]? = some (conn0 s) ∧
    (conn0 s).inst.connState = .reading ∧ (conn0 s).inst.faultMark = none ∧ (conn0 s).sent = [] ∧
    (conn0 s).clientClosed = true := by decide +kernel

/-- For WriteSendsResponseAndCloses (both clauses) and FailedWriteCloses. -/
theorem witness_write_premises :
    let s := answering [.write 0]
    let s' := answering [.writeFail 0 3]
    s.schedule = .write 0 :: [] ∧ s.conns[0]? = some (conn0 s) ∧ (conn0 s).inst.connState = .writing ∧
    (conn0 s).inst.txFrame = some idResponse ∧ s'.schedule = .writeFail 0 3 :: [] ∧ s'.conns[0]? = some (conn0 s) ∧
    (answering []).schedule = [] ∧ ∀ c ∈ (answering []).conns, c.inst.connState = .writing := by decide +kernel

/-- Every clause: a closed connection, one that is not, and nothing pending. -/
theorem witness_ReleaseOnlyWhenClosed :
    let s := aborted [.release 0]
    let s' := answering [.release 0]
    let s'' := aborted []
    s.schedule = .release 0 :: [] ∧ s.conns[0]? = some (conn0 s) ∧ (conn0 s).inst.connState = .closed ∧
    s'.schedule = .release 0 :: [] ∧ s'.conns[0]? = some (conn0 s') ∧ (conn0 s').inst.connState ≠ .closed ∧
    s''.conns[0]? = some (conn0 s'') ∧ s''.schedule = [] ∧ s''.readyConn = none ∧ s''.unreleasedConn = some 0 := by
  decide +kernel

/-- Both clauses: a step about another connection, and the instance's own PROCESS. -/
theorem witness_FaultedInstanceIsStuck :
    let c := { Conn.reset with inst := { Instance.reset with
      connState := .processing, faultMark := some .payloadTooLong } }
    let s := { State.reset with conns := [c, Conn.reset], schedule := [.clientSend 1 [0xF8]] }
    let s' := { s with schedule := [.process 0] }
    s.conns[0]? = some c ∧ c.inst.connState = .processing ∧ c.inst.faultMark ≠ none ∧ (nextOf (step s)).isSome ∧
    s'.conns[0]? = some c ∧ s'.schedule = .process 0 :: [] := by decide +kernel

/-- For StepKeepsInvariant, InvariantStateNeverStops, StepKeepsSharedState and StepKeepsSpacesCanonical. -/
theorem witness_step_premises :
    let s := requesting 0x90 [.process 0]
    s.Inv ∧ (nextOf (step s)).isSome ∧ ∀ c ∈ s.conns, c.inst.rx.wf = true ∧ c.inst.tx.wf = true :=
  ⟨by decide +kernel, by decide +kernel, by decide +kernel⟩

theorem witness_ClosedInstanceIsFinal :
    let s := aborted [.process 0]
    s.conns[0]? = some (conn0 s) ∧ (conn0 s).inst.connState = .closed ∧ (nextOf (step s)).isSome := by decide +kernel

/-- For StepFollowsConnStateMachine, StepWritesElementsInTheirStates and ClientReceivesOnlyTheResponse: every premise,
with each element's change happening in one of the three steps. -/
theorem witness_change_premises :
    let before := fun s : State => s.conns[0]?
    let after := fun s : State => (nextOf (step s)).bind (fun t => t.conns[0]?)
    let rd := reading idRequest false [.read 0 8]
    let pr := requesting 0x90 [.process 0]
    let wr := answering [.write 0]
    (before rd).isSome ∧ (after rd).isSome ∧ (after rd).map (·.inst.rx) ≠ (before rd).map (·.inst.rx) ∧
    (after pr).map (·.inst.body) ≠ (before pr).map (·.inst.body) ∧
    (after pr).map (·.inst.tx) ≠ (before pr).map (·.inst.tx) ∧
    ((nextOf (step (holding [] [.process 0]))).map seen ≠ some (seen (holding [] []))) ∧
    (after wr).map (·.received) ≠ (before wr).map (·.received) := by decide +kernel

/-- Every clause: PROCESS of connection 0 as the next action, the same with nothing pending, and a release of the
connection itself with nothing pending. -/
theorem witness_ConnectionsAreIsolated :
    let r := requesting 0x90 [.process 0]
    let s := { r with conns := r.conns ++ [Conn.reset] }
    let s' := { s with schedule := [] }
    s.schedule = .process 0 :: [] ∧ (HostAction.process 0).target ≠ some 1 ∧ s.conns[1]? = some Conn.reset ∧
    (nextOf (step s)).isSome ∧ s'.schedule = [] ∧ s'.idleAction = some (.process 0) ∧ s'.readyConn ≠ some 1 ∧
    s'.conns[1]? = some Conn.reset ∧ (nextOf (step s')).isSome ∧
    (aborted []).readyConn ≠ some 0 ∧ (aborted []).idleAction = some (.release 0) ∧
    (nextOf (step (aborted []))).isSome := by decide +kernel

theorem witness_InterleavingsCommute :
    let r := requesting 0x90 []
    let s := { r with conns := r.conns ++ r.conns }
    s.Inv ∧ (HostAction.process 0).target = some 0 ∧ (HostAction.process 1).target = some 1 ∧ 0 ≠ 1 :=
  ⟨by decide +kernel, rfl, rfl, by decide⟩

/-- For ProcessingEndsWithoutHost, ClosedConnectionsAreReleased and OnlyReadAndWriteWait, the last with an end on each
side: a closed connection to release, and a read to wait for. -/
theorem witness_idle_premises :
    (requesting 0x90 []).Inv ∧ (requesting 0x90 []).schedule = [] ∧ (aborted []).Inv ∧ (aborted []).schedule = [] ∧
    (reading [] false []).Inv ∧ (reading [] false []).schedule = [] :=
  ⟨by decide +kernel, rfl, by decide +kernel, rfl, by decide +kernel, rfl⟩

end Sys2Proof.Tests
end

