-- ==== Sys2Proof/Proofs/Checksum.lean ====
section
/-! The ChecksumEngine's statements (spec/40_checksum.md R69 to R71). First the rules of one iteration, each said once;
then the 8 iterations of a byte update; then the bytes of a computation. -/

namespace Sys2Proof.Machine

/-! ### One iteration -/

@[simp] theorem CrcUnit.iter_fb (u : CrcUnit) (k : BitVec 3) : (u.iter k).fb = feedback u.crc u.sh := rfl

@[simp] theorem CrcUnit.iter_sh (u : CrcUnit) (k : BitVec 3) : (u.iter k).sh = u.sh <<< 1 := rfl

/-- The mask to 16 bits drops the 17th bit of the shifted register, so 16-bit words suffice. -/
theorem CrcUnit.iter_crc (u : CrcUnit) (k : BitVec 3) :
    (u.iter k).crc = if feedback u.crc u.sh then (u.crc <<< 1) ^^^ crcPoly else u.crc <<< 1 := by
  have hshift : (u.crc.setWidth 17 <<< 1).setWidth 16 = u.crc <<< 1 := by
    rw [BitVec.setWidth_shiftLeft_of_le (by decide), BitVec.setWidth_setWidth_of_le _ (by decide), BitVec.setWidth_eq]
  have hpoly : (crcPoly.setWidth 17).setWidth 16 = crcPoly := rfl
  simp only [CrcUnit.iter, apply_ite (BitVec.setWidth 16), BitVec.setWidth_xor, hshift, hpoly]

theorem feedback_iff_toNat (crc : Word16) (sh : Byte) :
    feedback crc sh = true ↔ (sh.toNat ^^^ (crc.toNat >>> 8)) &&& 0x80 ≠ 0 := by
  have hsh : sh.toNat % 65536 = sh.toNat := Nat.mod_eq_of_lt (by have := sh.isLt; omega)
  simp [feedback, ← BitVec.toNat_inj, hsh]

theorem CrcUnit.iter_crc_toNat (u : CrcUnit) (k : BitVec 3) :
    (u.iter k).crc.toNat
      = (if feedback u.crc u.sh then (u.crc.toNat <<< 1) ^^^ 0x1021 else u.crc.toNat <<< 1) &&& 0xFFFF := by
  rw [CrcUnit.iter_crc, Nat.and_two_pow_sub_one_eq_mod _ 16]
  split
  · rw [BitVec.toNat_xor, BitVec.toNat_shiftLeft, Nat.xor_mod_two_pow]; rfl
  · exact BitVec.toNat_shiftLeft

theorem CrcUnit.iter_sh_toNat (u : CrcUnit) (k : BitVec 3) : (u.iter k).sh.toNat = (u.sh.toNat <<< 1) &&& 0xFF := by
  rw [CrcUnit.iter_sh, Nat.and_two_pow_sub_one_eq_mod _ 8, BitVec.toNat_shiftLeft]

/-- The iteration's number has no effect on the new register. -/
theorem CrcUnit.iter_crc_congr {u v : CrcUnit} (j k : BitVec 3) (hc : u.crc = v.crc) (hs : u.sh = v.sh) :
    (u.iter j).crc = (v.iter k).crc := by
  rw [CrcUnit.iter_crc, CrcUnit.iter_crc, hc, hs]

/-! ### A byte update -/

/-- Only how many iterations run matters to the register, not their numbers. -/
theorem CrcUnit.foldl_iter_crc (ks : List (BitVec 3)) {u v : CrcUnit} (hc : u.crc = v.crc) (hs : u.sh = v.sh) :
    (ks.foldl CrcUnit.iter u).crc = ((fun w : CrcUnit => w.iter 0)^[ks.length] v).crc := by
  induction ks generalizing u v with
  | nil => exact hc
  | cons k ks ih =>
    rw [List.foldl_cons, List.length_cons, Function.iterate_succ_apply]
    exact ih (CrcUnit.iter_crc_congr k 0 hc hs) (by rw [CrcUnit.iter_sh, CrcUnit.iter_sh, hs])

theorem CrcUnit.foldl_iter_sh (ks : List (BitVec 3)) (u : CrcUnit) :
    (ks.foldl CrcUnit.iter u).sh = u.sh <<< ks.length := by
  induction ks generalizing u with
  | nil => exact (BitVec.shiftLeft_zero u.sh).symm
  | cons k ks ih => rw [List.foldl_cons, ih, CrcUnit.iter_sh, ← BitVec.shiftLeft_add, List.length_cons, Nat.add_comm]

theorem CrcUnit.byte_sh (u : CrcUnit) (b : Byte) : (u.byte b).sh = 0x00#8 := by
  rw [CrcUnit.byte, CrcUnit.foldl_iter_sh]
  exact BitVec.shiftLeft_eq_zero (Nat.le_refl 8)

/-! ### A computation -/

theorem crcCompute_concat (init : Word16) (data : List Byte) (b : Byte) :
    crcCompute init (data ++ [b]) = crcByte (crcCompute init data) b := by
  simp only [crcCompute_eq_foldl, List.foldl_append, List.foldl_cons, List.foldl_nil]

/-! ### The statements -/

/-- Settles O1, from the three rules of an iteration; the rule's example is their evaluation. -/
theorem crcIterationRound : Obligations.CrcIterationRound := by
  unfold Obligations.CrcIterationRound
  refine ⟨fun u k => ⟨feedback_iff_toNat u.crc u.sh, CrcUnit.iter_crc_toNat u k, CrcUnit.iter_sh_toNat u k⟩, ?_⟩
  intro u hcrc hsh k
  rw [CrcUnit.iter_fb, CrcUnit.iter_crc, CrcUnit.iter_sh, hcrc, hsh]
  decide

/-- Settles O3: a byte update is the fold of 8 iterations, and its register is `crcByte` of the register before. -/
theorem crcByteRunsEightIterations : Obligations.CrcByteRunsEightIterations := by
  unfold Obligations.CrcByteRunsEightIterations
  refine ⟨fun u b => ⟨CrcUnit.foldl_iter_crc iterations rfl rfl, CrcUnit.byte_sh u b⟩, fun u v b h => ?_, fun u h => ?_⟩
  · rw [CrcUnit.byte_congr b h]
  · simp only [CrcUnit.byte_crc, h]
    decide

/-- Settles O4: a computation is the fold of `crcByte` over the bytes, started at `CRC_INIT`. -/
theorem crcComputeTakesBytesInOrder : Obligations.CrcComputeTakesBytesInOrder := by
  unfold Obligations.CrcComputeTakesBytesInOrder
  refine ⟨fun init => rfl, fun init data b u h => ?_, by decide +kernel⟩
  rw [crcCompute_concat, CrcUnit.byte_crc, h]

end Sys2Proof.Machine
end

