-- ==== Sys2Proof/Proofs/FrameCodec.lean ====
section
/-! The parser's statement (spec/41_frame_codec.md R80 to R88), and the rules of the codec that it and the transaction
use: a 2-byte field inside a buffer, PARSE of a request frame, and TX after BUILD. -/

namespace Sys2Proof.Machine

/-! ### PARSE of a request buffer -/

/-- R86 to R88 on a buffer the host has read: completeness, then the checksum, then the body. -/
theorem Instance.parseBody_loadRx (cfg : Config) (t : Instance) (raw : List Byte) (len : Nat) :
    (t.loadRx raw).parseBody cfg len
      = if raw.length < 7 + len then .err .truncatedFrame
        else if 256 * (raw.getD (5 + len) 0#8).toNat + (raw.getD (6 + len) 0#8).toNat
            ≠ (crcCompute cfg.crcInit ((raw.drop 5).take len)).toNat then .err .invalidChecksum
        else .ok ((raw.drop 5).take len) := by
  rw [Instance.parseBody, Instance.loadRx_rxLen]
  split
  · rfl
  · have hbody := t.memRead_loadRx raw 5 len (by omega)
    have hsum : (t.loadRx raw).checksumField len
        = some (fromBe16 (raw.getD (5 + len) 0#8) (raw.getD (6 + len) 0#8)) := by
      rw [show 6 + len = 5 + len + 1 by omega]
      exact t.be16Field_loadRx raw (5 + len) (by omega)
    rw [hbody, hsum]
    simp only [ne_eq, ← BitVec.toNat_inj, fromBe16_toNat]

/-- Settles O9: each read of PARSE is guarded by the length check before it, so `MemRead` is defined there. -/
theorem parseChecksInOrder : Obligations.ParseChecksInOrder := by
  unfold Obligations.ParseChecksInOrder
  intro cfg t raw len body
  rw [Instance.parse, Instance.loadRx_rxLen]
  split
  · rfl
  rw [t.memRead_loadRx raw 0 3 (by omega), List.drop_zero, header]
  dsimp only
  split
  · rfl
  split
  · rfl
  rw [Instance.lengthField, t.be16Field_loadRx raw 3 (by omega)]
  dsimp only
  rw [fromBe16_toNat]
  exact t.parseBody_loadRx cfg raw len

/-! ### PARSE of a request frame -/

/-- `be16`, read back as an unsigned integer. -/
theorem be16_toNat (v : Word16) : 256 * ((v >>> 8).setWidth 8).toNat + (v.setWidth 8).toNat = v.toNat := by
  rw [BitVec.toNat_setWidth, BitVec.toNat_setWidth, BitVec.toNat_ushiftRight, Nat.shiftRight_eq_div_pow]
  omega

/-- A 2-byte field inside a buffer has the value that was put there. -/
theorem be16_getD (pre post : List Byte) (v : Word16) {a b : Nat} (ha : a = pre.length) (hb : b = pre.length + 1) :
    256 * ((pre ++ be16 v ++ post).getD a 0#8).toNat + ((pre ++ be16 v ++ post).getD b 0#8).toNat = v.toNat := by
  subst ha hb
  rw [← be16_toNat v]
  simp [be16]

/-- PARSE of a request frame gives its body back, whatever follows it in the buffer (R90, R91). -/
theorem Instance.parse_reqFrame (cfg : Config) (t : Instance) (p junk : List Byte) (h : p.length ≤ 65535) :
    (t.loadRx (reqFrame cfg p ++ junk)).parse cfg = .ok p := by
  have hraw : reqFrame cfg p ++ junk
      = header ++ be16 (BitVec.ofNat 16 p.length) ++ (p ++ be16 (crcCompute cfg.crcInit p) ++ junk) := by
    simp [reqFrame]
  have hlen := be16_getD header (p ++ be16 (crcCompute cfg.crcInit p) ++ junk) (BitVec.ofNat 16 p.length)
    (a := 3) (b := 4) rfl rfl
  rw [← hraw, BitVec.toNat_ofNat, Nat.mod_eq_of_lt (by omega)] at hlen
  have hsum := be16_getD (header ++ be16 (BitVec.ofNat 16 p.length) ++ p) junk (crcCompute cfg.crcInit p)
    (a := 5 + p.length) (b := 6 + p.length) (by simp; omega) (by simp; omega)
  rw [← reqFrame] at hsum
  have hhead : (reqFrame cfg p ++ junk).take 3 = [0xF8#8, 0x55#8, 0xCE#8] := rfl
  have hbody : ((reqFrame cfg p ++ junk).drop 5).take p.length = p := by
    rw [show (reqFrame cfg p ++ junk).drop 5 = p ++ (be16 (crcCompute cfg.crcInit p) ++ junk) by
      simp [hraw, header, be16], List.take_left]
  have hsize : 7 + p.length ≤ (reqFrame cfg p ++ junk).length := by simp
  rw [parseChecksInOrder cfg t, hlen, if_neg (by omega), if_neg (not_not_intro hhead), if_neg (by omega),
    if_neg (by omega), hbody, if_neg (not_not_intro hsum)]

/-! ### TX after BUILD -/

theorem Memory.writeBytes_append (m : Memory) (a : Nat) (xs ys : List Byte) :
    m.writeBytes a (xs ++ ys) = (m.writeBytes a xs).writeBytes (a + xs.length) ys := by
  induction xs generalizing m a with
  | nil => rfl
  | cons x xs ih =>
    rw [List.cons_append, Memory.writeBytes, Memory.writeBytes, ih, List.length_cons, Nat.add_right_comm, Nat.add_assoc]

theorem Memory.readBytes_writeBytes_self (m : Memory) (a : Nat) (bs : List Byte) :
    (m.writeBytes a bs).readBytes a bs.length = some bs :=
  Memory.readBytes_eq_some _ a bs fun i hi => Memory.readByte_writeBytes bs m a i hi

/-- BUILD's four writes are one write of the response frame (R56, R92). -/
theorem writeFrame_eq_writeBytes (cfg : Config) (p : List Byte) (tx : Memory) :
    writeFrame cfg p tx = tx.writeBytes 0 (rspFrame cfg p) := by
  simp [writeFrame, rspFrame, Memory.writeBytes_append, Nat.add_assoc]

/-- After BUILD the host finds the response frame in `TX[0..tx_len)`. -/
@[simp] theorem Instance.writeResponse_txFrame (cfg : Config) (t : Instance) :
    (t.writeResponse cfg).txFrame = some (rspFrame cfg t.payload) := by
  rw [Instance.txFrame, Instance.writeResponse_tx, Instance.writeResponse_txLen, writeFrame_eq_writeBytes,
    ← rspFrame_length]
  exact Memory.readBytes_writeBytes_self t.tx 0 (rspFrame cfg t.payload)

end Sys2Proof.Machine
end

