-- ==== Sys2Proof/Proofs/Transaction.lean ====
section
/-! The answered transaction (spec/43_transaction.md R105, R106): PARSE of the frame, DISPATCH of a command that
REGISTRY holds, BUILD of its payload. -/

namespace Sys2Proof.Machine

/-- A step whose next action is the PROCESS of a ready connection whose request parses. -/
theorem step_of_process_ok {s : State} {n : Nat} {c : Conn} {acts : List HostAction} {body : List Byte}
    (hs : s.schedule = .process n :: acts) (hc : s.conns[n]? = some c) (hr : c.inst.ready = true)
    (hp : c.inst.parse s.cfg = .ok body) :
    step s = .next { s with
      schedule := acts, active := none,
      conns := s.conns.set n { c with inst := c.inst.processed s.cfg s.registry body } } := by
  rw [step, hs]
  exact process_of_ok (s := { s with schedule := acts }) hc hr hp

/-- PROCESS of a body whose command has an entry that fits the length field: the entry is the answer (R106). -/
theorem Instance.processed_of_entry {cfg : Config} {r : Registry} {body rest e : List Byte} {i : Instr} {t : Instance}
    (hp : t.connState = .processing) (hf : t.faultMark = none) (hd : decodeBody body = .ok (i, rest))
    (he : r.lookup i.opcode = some e) (hfit : e.length < 2 ^ (8 * cfg.respLenWidth.bytes)) :
    t.processed cfg r body
      = { ({ t.endCrc with body := body, payload := e } : Instance).writeResponse cfg with connState := .writing } := by
  rw [Instance.processed, Instance.dispatchedBody, hd]
  dsimp only
  rw [Instance.dispatched, he]
  exact Instance.finish_of_fits hp hf hfit

/-- The two commands of the opcode map, with the payloads that the ROM holds for them (R28, R64). -/
theorem decodeBody_registryRom {op : Byte} {p : List Byte} (w : RespLenWidth) (args : List Byte)
    (h : op = 0x90#8 ∧ p = idPayload ∨ op = 0xA0#8 ∧ p = weightPayload) :
    ∃ i, decodeBody (op :: args) = .ok (i, args) ∧ Registry.lookup registryRom i.opcode = some p ∧
      p.length < 2 ^ (8 * w.bytes) := by
  rcases h with ⟨rfl, rfl⟩ | ⟨rfl, rfl⟩
  · exact ⟨.getId, rfl, rfl, (registry_payloads_fit w).1⟩
  · exact ⟨.getWeight, rfl, rfl, (registry_payloads_fit w).2⟩

/-- Settles O23: the frame parses to its body, the body's command has its entry in the ROM, and BUILD writes the entry's
response frame. -/
theorem validRequestIsAnswered : Obligations.ValidRequestIsAnswered := by
  unfold Obligations.ValidRequestIsAnswered
  intro s n c t acts op p args junk hs hc hreg hrx hargs hproc hfault hreason hop
  have hparse : c.inst.parse s.cfg = .ok (op :: args) := by
    rw [hrx]
    exact t.parse_reqFrame s.cfg (op :: args) junk hargs
  obtain ⟨i, hdec, hent, hfit⟩ := decodeBody_registryRom s.cfg.respLenWidth args hop
  have hstep := step_of_process_ok hs hc ((Instance.ready_iff _).2 ⟨hproc, hfault⟩) hparse
  rw [Instance.processed_of_entry hproc hfault hdec (hreg ▸ hent) hfit] at hstep
  exact ⟨_, hstep, rfl, hreason, rfl, rfl, rfl, Instance.writeResponse_txFrame _ _, rfl, rfl, hfault⟩

end Sys2Proof.Machine
end

