-- ==== Sys2Proof/Proofs/Dispatch.lean ====
section
/-! The two commands (spec/42_dispatch.md R97, R98): the opcode selects the command, whose REGISTRY entry (R28) becomes
the PAYLOAD latch of the executed connection. -/

namespace Sys2Proof.Machine

/-- An opcode that REGISTRY holds writes its entry to PAYLOAD, and does not abort. -/
theorem Instance.dispatched_of_entry {r : Registry} {op : Byte} {e : List Byte} (t : Instance)
    (he : r.lookup op = some e) : t.dispatched r op = { t with payload := e } := by
  rw [Instance.dispatched, he]

/-- A command that REGISTRY holds completes: its entry goes to the executed connection's PAYLOAD, and that is all (R96). -/
theorem exec_of_entry {s : State} {n : Nat} {c : Conn} {i : Instr} {e : List Byte} (ha : s.active = some n)
    (hc : s.conns[n]? = some c) (he : s.registry.lookup i.opcode = some e) :
    exec i s = .next { s with conns := s.conns.set n { c with inst := { c.inst with payload := e } } } := by
  rw [exec_of_active i ha hc, Instance.dispatched_of_entry c.inst he, State.setConn]

/-- Settles O18: the opcode `0x90` decodes by the round trip, and the ROM's entry for it is R97's payload. -/
theorem getIdWritesIdPayload : Obligations.GetIdWritesIdPayload := by
  unfold Obligations.GetIdWritesIdPayload
  obtain ⟨-, -, hdec, -⟩ := Laws.RoundTrip.getId
  refine ⟨hdec, fun s n c ha hc hreg => exec_of_entry ha hc ?_⟩
  rw [hreg]
  rfl

/-- Settles O19: the opcode `0xA0` decodes by the round trip, and the ROM's entry for it is R98's payload. -/
theorem getWeightWritesWeightPayload : Obligations.GetWeightWritesWeightPayload := by
  unfold Obligations.GetWeightWritesWeightPayload
  obtain ⟨-, -, hdec, -⟩ := Laws.RoundTrip.getWeight
  refine ⟨hdec, fun s n c ha hc hreg => exec_of_entry ha hc ?_⟩
  rw [hreg]
  rfl

end Sys2Proof.Machine
end

