-- ==== Sys2Proof/Proofs/HostActions.lean ====
section
/-! The host interface's statements (spec/60_exceptions.md section 4): the accept, the one read, the write, and the
waits for them. The rules of one step and of the read come first, each said once. -/

namespace Sys2Proof.Machine

/-! ### One step -/

theorem step_of_schedule {s : State} {a : HostAction} {acts : List HostAction} (hs : s.schedule = a :: acts) :
    step s = perform a { s with schedule := acts } := by
  rw [step, hs]

/-- The machine waits where every connection does: in Reading for a read, in Writing for a write (R149). -/
theorem step_of_all_waiting {s : State} (hs : s.schedule = [])
    (h : ∀ c ∈ s.conns, c.inst.connState = .reading ∨ c.inst.connState = .writing) : step s = .next s := by
  refine step_of_waiting hs (State.idleAction_eq_none.2 fun c hc => ?_)
  rcases h c hc with hst | hst <;> simp [Instance.ready, Conn.unreleased, hst]

/-- PROCESS of a ready connection whose request does not parse, as a step. -/
theorem step_of_process_err {s : State} {n : Nat} {c : Conn} {acts : List HostAction} {e : ErrorKind}
    (hs : s.schedule = .process n :: acts) (hc : s.conns[n]? = some c) (hr : c.inst.ready = true)
    (hp : c.inst.parse s.cfg = .err e) :
    step s = .next { s with
      schedule := acts, conns := s.conns.set n { c with inst := c.inst.endCrc.abort e } } := by
  rw [step_of_schedule hs]
  exact process_of_err (s := { s with schedule := acts }) hc hr hp

/-- The write on a connection in Writing whose response frame can be read. -/
theorem hostWrite_of_frame {s : State} {n : Nat} {c : Conn} {frame : List Byte} (sentOf : List Byte → List Byte)
    (hc : s.conns[n]? = some c) (hw : c.inst.connState = .writing) (hf : c.inst.txFrame = some frame) :
    hostWrite n sentOf s = .next (s.setConn n (c.closeWriting (sentOf frame))) := by
  simp only [hostWrite, hc, hw, hf, if_true]

/-! ### The one read -/

theorem step_of_read {s : State} {n k : Nat} {c : Conn} {acts : List HostAction}
    (hs : s.schedule = .read n k :: acts) (hc : s.conns[n]? = some c) :
    step s = .next { s with schedule := acts, conns := s.conns.set n (c.read s.cfg k) } := by
  rw [step_of_schedule hs, perform, State.updConn_of_get (s := { s with schedule := acts }) hc]
  rfl

theorem Conn.readReturns_iff {c : Conn} :
    c.readReturns = true ↔ c.inst.connState = .reading ∧ (c.sent ≠ [] ∨ c.clientClosed = true) := by
  simp [Conn.readReturns]

/-- A read that returns takes the first `readLength` bytes from what was sent to RX. -/
theorem Conn.read_of_returns {c : Conn} (cfg : Config) (k : Nat) (h : c.readReturns = true) :
    c.read cfg k = { c with
      inst := { c.inst.loadRx (c.sent.take (readLength cfg c.sent k)) with connState := .processing }
      sent := c.sent.drop (readLength cfg c.sent k) } := by
  rw [Conn.read, if_pos h]

/-- A client that is silent and keeps its side open gives the read nothing to return (R131). -/
theorem Conn.read_of_silent {c : Conn} (cfg : Config) (k : Nat) (hsent : c.sent = []) (hopen : c.clientClosed = false) :
    c.read cfg k = c := by
  have hwait : ¬ c.readReturns = true := by simp [Conn.readReturns_iff, hsent, hopen]
  rw [Conn.read, if_neg hwait]

/-- What a read of 0 bytes leaves (R132). -/
def Instance.endOfStream (t : Instance) : Instance := { t.loadRx [] with connState := .processing }

/-- A client that closed its side without sending gives a read of 0 bytes (R132). -/
theorem Conn.read_of_endOfStream {c : Conn} (cfg : Config) (k : Nat) (hreading : c.inst.connState = .reading)
    (hsent : c.sent = []) (hclosed : c.clientClosed = true) :
    c.read cfg k = { c with inst := c.inst.endOfStream } := by
  have hreturns : c.readReturns = true := Conn.readReturns_iff.2 ⟨hreading, .inr hclosed⟩
  simp only [Conn.read_of_returns cfg k hreturns, hsent, List.take_nil, List.drop_nil, Instance.endOfStream]

theorem readLength_le_maxRead (cfg : Config) (sent : List Byte) (k : Nat) : readLength cfg sent k ≤ cfg.maxRead :=
  (Nat.min_le_right _ _).trans (Nat.min_le_left _ _)

theorem readLength_le_length (cfg : Config) (sent : List Byte) (k : Nat) : readLength cfg sent k ≤ sent.length :=
  (Nat.min_le_right _ _).trans (Nat.min_le_right _ _)

/-- Every length in R127's range is chosen by the free input equal to it. -/
theorem readLength_of_le {cfg : Config} {sent : List Byte} {k : Nat} (hmax : k ≤ cfg.maxRead)
    (hlen : k ≤ sent.length) : readLength cfg sent k = k :=
  Nat.min_eq_left (Nat.le_min.2 ⟨hmax, hlen⟩)

/-- After a read, RX holds no byte past those the read delivered. -/
theorem Instance.loadRx_readByte_of_le (t : Instance) {bytes : List Byte} {a : Nat} (h : bytes.length ≤ a) :
    (t.loadRx bytes).rx.readByte a = none := by
  rw [Instance.loadRx_rx, Memory.readByte_writeBytes_of_outside _ _ _ _ (.inr (by omega))]
  rfl

/-- After a read, RX up to `rx_len` is the bytes the read delivered. -/
theorem Instance.loadRx_memRead_self (t : Instance) (bytes : List Byte) :
    (t.loadRx bytes).memRead 0 bytes.length = some bytes := by
  rw [Instance.memRead_loadRx t bytes 0 bytes.length (by omega), List.drop_zero, List.take_length]

/-- A buffer too short for the header is rejected before any byte of it is read (R82). -/
theorem Instance.parse_of_short (cfg : Config) {t : Instance} (h : t.rxLen < 3) :
    t.parse cfg = .err .invalidHeader := by
  rw [Instance.parse, if_pos h]

/-! ### The statements -/

/-- Settles O28: the read returns, its length is `readLength`, and RX is written from empty with the bytes taken. -/
theorem readDeliversFrontOfSent : Obligations.ReadDeliversFrontOfSent := by
  unfold Obligations.ReadDeliversFrontOfSent
  intro s n k c acts hs hc hreading hsent
  have hlen : (c.sent.take (readLength s.cfg c.sent k)).length = readLength s.cfg c.sent k :=
    List.length_take_of_le (readLength_le_length s.cfg c.sent k)
  have hstep := step_of_read hs hc
  rw [Conn.read_of_returns s.cfg k (Conn.readReturns_iff.2 ⟨hreading, hsent⟩)] at hstep
  refine ⟨readLength s.cfg c.sent k, _, hstep, readLength_le_maxRead _ _ _, readLength_le_length _ _ _,
    readLength_of_le, hlen, ?_, fun a ha => ?_, ?_⟩
  · have hread := c.inst.loadRx_memRead_self (c.sent.take (readLength s.cfg c.sent k))
    rwa [hlen] at hread
  · exact c.inst.loadRx_readByte_of_le (hlen.trans_le ha)
  · rw [Instance.loadRx, hlen]

/-- Settles O30: the read returns with an empty front part, and PARSE rejects the empty buffer at its first check. -/
theorem endOfStreamIsInvalidHeader : Obligations.EndOfStreamIsInvalidHeader := by
  unfold Obligations.EndOfStreamIsInvalidHeader
  intro s n k c acts hs hc hreading hfault hsent hclosed
  have hread := step_of_read hs hc
  rw [Conn.read_of_endOfStream s.cfg k hreading hsent hclosed] at hread
  have hget := getElem?_set_of_get (b := { c with inst := c.inst.endOfStream }) hc
  have hready : c.inst.endOfStream.ready = true := (Instance.ready_iff _).2 ⟨rfl, hfault⟩
  have hparse : c.inst.endOfStream.parse s.cfg = .err .invalidHeader :=
    Instance.parse_of_short s.cfg (Nat.zero_lt_succ 2)
  have hprocess := step_of_process_err (s := { s with
    schedule := .process n :: acts, conns := s.conns.set n { c with inst := c.inst.endOfStream } }) rfl hget hready hparse
  have hrun := (run_succ_of_next 1 hread).trans (run_succ_of_next 0 hprocess)
  exact ⟨_, hrun, rfl, _, getElem?_set_of_get hget, rfl, rfl, rfl, rfl⟩

/-- Settles O26: with the listener started the accept is enabled, and the elements are those of `Instance.reset`. -/
theorem acceptCreatesResetInstance : Obligations.AcceptCreatesResetInstance := by
  unfold Obligations.AcceptCreatesResetInstance
  refine ⟨fun s acts p hs hlistener => ?_, rfl, rfl, fun _ => rfl, rfl, rfl, rfl, fun _ => rfl, rfl, rfl⟩
  rw [step_of_schedule hs, perform, hostAccept, hlistener]

/-- Settles O29: the read of a silent client does not return, and a machine with all connections in Reading waits. -/
theorem silentClientLeavesReading : Obligations.SilentClientLeavesReading := by
  unfold Obligations.SilentClientLeavesReading
  refine ⟨fun s n k c acts hs hc hsent hopen => ?_, fun s hs h => step_of_all_waiting hs fun c hc => .inl (h c hc)⟩
  obtain ⟨hn, rfl⟩ := List.getElem?_eq_some_iff.1 hc
  rw [step_of_read hs hc, Conn.read_of_silent s.cfg k hsent hopen, List.set_getElem_self]

/-- Settles O31: a write that succeeds sends the frame whole, and a machine with all connections in Writing waits. -/
theorem writeSendsResponseAndCloses : Obligations.WriteSendsResponseAndCloses := by
  unfold Obligations.WriteSendsResponseAndCloses
  refine ⟨fun s n c frame acts hs hc hw hf => ?_, fun s hs h => step_of_all_waiting hs fun c hc => .inr (h c hc)⟩
  rw [step_of_schedule hs]
  exact hostWrite_of_frame (s := { s with schedule := acts }) (fun bytes => bytes) hc hw hf

end Sys2Proof.Machine
end

