-- ==== Sys2Proof/Proofs/Reset.lean ====
section
/-! The block reset (spec/70_reset_and_hazards.md R140): the configuration, the entries of REGISTRY (spec/10_state.md
R28) and the absence of connections. -/

namespace Sys2Proof.Machine

/-- The lookup at an opcode compares opcodes: an entry listed under an opcode's number answers for that opcode alone. -/
theorem Registry.lookup_cons_toNat (key op : Byte) (p : List Byte) (r : Registry) :
    Registry.lookup ((key.toNat, p) :: r) op = if op = key then some p else r.lookup op := by
  simp only [Registry.lookup, BitVec.toNat_inj]

/-- The ROM of R28 has the two commands' entries and no other. -/
theorem Registry.lookup_registryRom (op : Byte) :
    Registry.lookup registryRom op
      = if op = 0x90#8 then some idPayload else if op = 0xA0#8 then some weightPayload else none := by
  have hrom : registryRom = [((0x90#8 : Byte).toNat, idPayload), ((0xA0#8 : Byte).toNat, weightPayload)] := rfl
  rw [hrom, Registry.lookup_cons_toNat, Registry.lookup_cons_toNat, Registry.lookup]

/-- Settles O35: reset's REGISTRY is the ROM, whose lookup is known at every opcode; the rest is reset's definition. -/
theorem resetFixesSharedState : Obligations.ResetFixesSharedState := by
  unfold Obligations.ResetFixesSharedState
  exact ⟨rfl, Registry.lookup_registryRom, rfl⟩

end Sys2Proof.Machine
end

