-- ==== Sys2Proof/Proofs/Invariant.lean ====
section
/-! The machine's invariant: it holds at reset, and each move of a connection keeps it (spec/10_state.md sections 1 and
3 to 6). -/

namespace Sys2Proof.Machine

/-! ### What the invariant says of an instance in each connection state -/

theorem State.Inv.conn {s : State} {n : Nat} {c : Conn} (h : s.Inv) (hc : s.conns[n]? = some c) : c.Inv s.cfg := by
  obtain ⟨-, -, hconns⟩ := h
  exact hconns c (List.mem_of_getElem? hc)

theorem Conn.Inv.inst {cfg : Config} {c : Conn} (h : c.Inv cfg) : c.inst.Inv cfg := h.1

theorem Instance.Inv.rx_exactly {cfg : Config} {t : Instance} (h : t.Inv cfg) : t.rx.exactly t.rxLen := h.1

/-- An instance in Processing holds nothing but its request. -/
theorem Instance.Inv.of_processing {cfg : Config} {t : Instance} (h : t.Inv cfg) (hp : t.connState = .processing) :
    t.body = [] ∧ t.payload = [] ∧ t.txLen = 0 ∧ t.tx = [] ∧ t.rejectReason = .none ∧ t.faultMark = none := by
  obtain ⟨-, -, htx, -, hfault, -, -, hst, -, -⟩ := h
  obtain ⟨hbody, ⟨hpay, hlen⟩, hreason⟩ := hst hp
  refine ⟨hbody, hpay, hlen, ?_, hreason, hfault⟩
  rw [Memory.exactly, hlen] at htx
  exact List.map_eq_nil_iff.1 htx

theorem Instance.Inv.ready_iff {cfg : Config} {t : Instance} (h : t.Inv cfg) :
    t.ready = true ↔ t.connState = .processing := by
  obtain ⟨-, -, -, -, hfault, -⟩ := h
  simp [Instance.ready_iff, hfault]

/-- A connection that is not closed has received nothing and is not released. -/
theorem Conn.Inv.of_not_closed {cfg : Config} {c : Conn} (h : c.Inv cfg) (hn : c.inst.connState ≠ .closed) :
    c.received = [] ∧ c.released = false := by
  obtain ⟨-, hrec, hrel⟩ := h
  refine ⟨?_, by simpa using mt hrel hn⟩
  rwa [Conn.receivedInv, if_neg (fun hc => hn hc.1)] at hrec

/-! ### PROCESS -/

/-- R97, R98: what each command answers. -/
def romPayload : Instr → List Byte
  | .getId => idPayload
  | .getWeight => weightPayload

/-- The ROM has an entry for each command (R28). -/
theorem Registry.lookup_registryRom_opcode (i : Instr) :
    Registry.lookup registryRom i.opcode = some (romPayload i) := by
  cases i <;> rfl

theorem romPayload_cases (i : Instr) : romPayload i = idPayload ∨ romPayload i = weightPayload := by
  cases i with
  | getId => exact .inl rfl
  | getWeight => exact .inr rfl

theorem romPayload_fits (w : RespLenWidth) (i : Instr) : (romPayload i).length < 2 ^ (8 * w.bytes) := by
  obtain ⟨hid, hweight⟩ := registry_payloads_fit w
  cases i with
  | getId => exact hid
  | getWeight => exact hweight

/-- PROCESS of an instance that meets the invariant ends in one of two ways: aborted with BODY perhaps written, or
answered with a payload of the ROM. -/
theorem ProcessMove.cases_of_inv {cfg : Config} {t t' : Instance} (h : ProcessMove cfg registryRom t t')
    (hinv : t.Inv cfg) (hp : t.connState = .processing) :
    (∃ e body, body.length ≤ cfg.maxRead - 7 ∧ t' = ({ t.endCrc with body := body } : Instance).abort e) ∨
    (∃ body p, body.length ≤ cfg.maxRead - 7 ∧ (p = idPayload ∨ p = weightPayload) ∧
      t' = { ({ t.endCrc with body := body, payload := p } : Instance).writeResponse cfg with
        connState := .writing }) := by
  obtain ⟨hbody, -, -, -, -, hfault⟩ := hinv.of_processing hp
  obtain ⟨-, hmax, -⟩ := id hinv
  cases h with
  | notReady hr => rw [hinv.ready_iff.2 hp] at hr; cases hr
  | aborted e _ _ => exact .inl ⟨e, t.body, by simp [hbody], rfl⟩
  | processed body _ hparse =>
    have hlen := Instance.parse_ok_length hparse
    rcases Instance.processed_cases cfg registryRom body t with heq | ⟨i, rest, p, -, hent, heq⟩
    · exact .inl ⟨_, body, by omega, heq⟩
    · obtain rfl := Option.some.inj ((Registry.lookup_registryRom_opcode i).symm.trans hent)
      exact .inr ⟨body, _, by omega, romPayload_cases i,
        heq.trans (Instance.finish_of_fits hp hfault (romPayload_fits _ i))⟩

/-! ### Each move keeps the invariant -/

/-- The read leaves the reset state with RX loaded. -/
theorem Instance.Inv.of_read {cfg : Config} {t : Instance} (bytes : List Byte) (h : t.Inv cfg)
    (hr : t.connState = .reading) (hlen : bytes.length ≤ cfg.maxRead) :
    Instance.Inv cfg { t.loadRx bytes with connState := .processing } := by
  obtain ⟨-, -, -, -, -, -, hst, -⟩ := h
  obtain rfl := hst hr
  have hrx := Memory.exactly_writeBytes bytes [] 0 rfl
  rw [Nat.zero_add] at hrx
  exact ⟨hrx, hlen, rfl, Nat.zero_le _, rfl, rfl, nofun, fun _ => ⟨rfl, ⟨rfl, rfl⟩, rfl⟩, nofun, nofun⟩

theorem Instance.Inv.of_abort {cfg : Config} {t : Instance} (e : ErrorKind) {body : List Byte} (h : t.Inv cfg)
    (hp : t.connState = .processing) (hbody : body.length ≤ cfg.maxRead - 7) :
    Instance.Inv cfg (({ t.endCrc with body := body } : Instance).abort e) := by
  obtain ⟨-, hpay, hlen, -, -, hfault⟩ := h.of_processing hp
  obtain ⟨hrx, hmax, htx, -⟩ := h
  exact ⟨hrx, hmax, htx, hbody, hfault, rfl, nofun, nofun, nofun,
    fun _ => .inr ⟨⟨hpay, hlen⟩, ErrorKind.reason_ne_none e⟩⟩

theorem Instance.Inv.of_answer {cfg : Config} {t : Instance} {body p : List Byte} (h : t.Inv cfg)
    (hp : t.connState = .processing) (hbody : body.length ≤ cfg.maxRead - 7)
    (hrom : p = idPayload ∨ p = weightPayload) :
    Instance.Inv cfg { ({ t.endCrc with body := body, payload := p } : Instance).writeResponse cfg with
      connState := .writing } := by
  obtain ⟨-, -, -, htx, hreason, hfault⟩ := h.of_processing hp
  obtain ⟨hrx, hmax, -⟩ := h
  have hex : (writeFrame cfg p t.tx).exactly (5 + cfg.respLenWidth.bytes + p.length) := by
    have := Memory.exactly_writeBytes (rspFrame cfg p) t.tx 0 (by rw [htx]; rfl)
    rwa [Nat.zero_add, rspFrame_length, ← writeFrame_eq_writeBytes] at this
  exact ⟨hrx, hmax, hex, hbody, hfault, rfl, nofun, nofun,
    fun _ => ⟨⟨hrom, Instance.writeResponse_txFrame cfg _⟩, hreason⟩, nofun⟩

/-- Closing a connection whose response the client may have received in part keeps what its buffers hold. -/
theorem Conn.Inv.of_closeWriting {cfg : Config} {c : Conn} {frame out : List Byte} (h : c.Inv cfg)
    (hw : c.inst.connState = .writing) (hf : c.inst.txFrame = some frame) (ho : out <+: frame) :
    (c.closeWriting out).Inv cfg := by
  obtain ⟨hrec, -⟩ := h.of_not_closed (by simp [hw])
  obtain ⟨⟨hrx, hmax, htx, hbody, hfault, hcrc, -, -, hst, -⟩, -, -⟩ := h
  obtain ⟨hans, hreason⟩ := hst hw
  obtain rfl : frame = rspFrame cfg c.inst.payload := Option.some.inj (hf.symm.trans hans.2)
  refine ⟨⟨hrx, hmax, htx, hbody, hfault, hcrc, nofun, nofun, nofun, fun _ => .inl ⟨hans, hreason⟩⟩, ?_, fun _ => rfl⟩
  rw [Conn.receivedInv, if_pos ⟨rfl, hreason⟩]
  simpa [Conn.closeWriting, hrec] using ho

/-- A new instance in the place of one that is not closed: nothing was received and nothing is released, as the
invariant asks unless the new one is closed without a rejection. -/
theorem Conn.Inv.of_inst {cfg : Config} {c : Conn} {t : Instance} (h : c.Inv cfg) (hn : c.inst.connState ≠ .closed)
    (ht : t.Inv cfg) (ha : t.connState = .closed → t.rejectReason ≠ .none) : Conn.Inv cfg { c with inst := t } := by
  obtain ⟨hrec, hrel⟩ := h.of_not_closed hn
  refine ⟨ht, ?_, fun hr => absurd (hrel.symm.trans hr) nofun⟩
  rw [Conn.receivedInv, if_neg (fun hc => ha hc.1 hc.2)]
  exact hrec

/-- PROCESS keeps the invariant of its connection. -/
theorem Conn.Inv.of_process {cfg : Config} {c : Conn} {t : Instance} (h : c.Inv cfg)
    (hm : ProcessMove cfg registryRom c.inst t) : Conn.Inv cfg { c with inst := t } := by
  by_cases hp : c.inst.connState = .processing
  · have hn : c.inst.connState ≠ .closed := by simp [hp]
    rcases hm.cases_of_inv h.inst hp with ⟨e, body, hbody, rfl⟩ | ⟨body, p, hbody, hrom, rfl⟩
    · exact h.of_inst hn (h.inst.of_abort e hp hbody) fun _ => ErrorKind.reason_ne_none e
    · exact h.of_inst hn (h.inst.of_answer hp hbody hrom) nofun
  · have hr : c.inst.ready ≠ true := fun hr => hp (h.inst.ready_iff.1 hr)
    cases hm with
    | notReady _ => exact h
    | aborted _ hready _ => exact absurd hready hr
    | processed _ hready _ => exact absurd hready hr

theorem ConnMove.keeps_inv {cfg : Config} {c c' : Conn} (hm : ConnMove cfg registryRom c c') (h : c.Inv cfg) :
    c'.Inv cfg := by
  cases hm with
  | stay | sent _ | clientClosed => exact h
  | read k hret =>
    obtain ⟨hreading, -⟩ := Conn.readReturns_iff.1 hret
    have hlen : (c.sent.take (readLength cfg c.sent k)).length ≤ cfg.maxRead :=
      (List.length_take_le _ _).trans (readLength_le_maxRead cfg c.sent k)
    exact h.of_inst (by simp [hreading]) (h.inst.of_read _ hreading hlen) nofun
  | process t hp => exact h.of_process hp
  | write frame out hw hf ho => exact h.of_closeWriting hw hf ho
  | release hclosed =>
    obtain ⟨hinst, hrec, -⟩ := h
    exact ⟨hinst, hrec, fun _ => hclosed⟩

/-! ### The machine -/

/-- No move changes the configuration or REGISTRY, nor starts a PROCESS that outlasts it. -/
theorem StepMove.shared {s s' : State} (h : StepMove s s') :
    s'.cfg = s.cfg ∧ s'.registry = s.registry ∧ (s.active = none → s'.active = none) := by
  cases h with
  | processed => exact ⟨rfl, rfl, fun _ => rfl⟩
  | _ => exact ⟨rfl, rfl, id⟩

theorem Conn.reset_inv (cfg : Config) : Conn.reset.Inv cfg :=
  ⟨⟨rfl, Nat.zero_le _, rfl, Nat.zero_le _, rfl, rfl, fun _ => rfl, nofun, nofun, nofun⟩, rfl, nofun⟩

theorem step_shared {s s' : State} (h : step s = .next s') :
    s'.cfg = s.cfg ∧ s'.registry = s.registry ∧ (s.active = none → s'.active = none) := by
  obtain ⟨r, -, hm⟩ := step_cases h
  exact hm.shared

/-- Settles O37: the reset state has the ROM and no connection. -/
theorem resetMeetsInvariant : Obligations.ResetMeetsInvariant := ⟨rfl, rfl, nofun⟩

/-- Settles O38: a connection of the next state is a new one, which meets the invariant, or a move of one that did. -/
theorem stepKeepsInvariant : Obligations.StepKeepsInvariant := by
  unfold Obligations.StepKeepsInvariant
  intro s s' ⟨hreg, hact, hconns⟩ h
  obtain ⟨hcfg, hreg', hact'⟩ := step_shared h
  refine ⟨hreg'.trans hreg, hact' hact, fun d hd => ?_⟩
  rw [hcfg]
  rcases step_conn_origin h hd with rfl | ⟨c, hc, hm⟩
  · exact Conn.reset_inv s.cfg
  · rw [hreg] at hm
    exact hm.keeps_inv (hconns c hc)

end Sys2Proof.Machine
end

