-- ==== Sys2Proof/Proofs/ChecksumLaws.lean ====
section
/-! The algebra of the checksum (spec/40_checksum.md section 2): the byte update as 8 conditional shifts of the register
with the byte XORed into its high half; the shift is linear and injective, and so is all that follows from it. -/

namespace Sys2Proof.Machine

/-! ### The feedback -/

/-- The mask `0x80` keeps bit 7 of the byte against bit 15 of the register. -/
theorem feedback_eq_xor (crc : Word16) (sh : Byte) : feedback crc sh = (sh.getLsbD 7 ^^ crc.getLsbD 15) := by
  have hmask : (0x0080#16) = BitVec.twoPow 16 7 := rfl
  have hbit : (sh.setWidth 16 ^^^ (crc >>> 8)).getLsbD 7 = (sh.getLsbD 7 ^^ crc.getLsbD 15) := by simp
  rw [feedback, hmask, BitVec.and_twoPow, hbit]
  cases sh.getLsbD 7 ^^ crc.getLsbD 15 <;> rfl

/-- Settles O2: the two top bits differ exactly when their XOR is set. -/
theorem feedbackIsTopBitDifference : Obligations.FeedbackIsTopBitDifference := by
  unfold Obligations.FeedbackIsTopBitDifference
  intro u k
  rw [CrcUnit.iter_fb, feedback_eq_xor, bne_iff_ne]

/-! ### The conditional shift -/

/-- One shift of the register, with `CRC_POLY` XORed in where a set bit falls out. -/
def crcShift (c : Word16) : Word16 := if c &&& 0x8000#16 ≠ 0#16 then (c <<< 1) ^^^ 0x1021#16 else c <<< 1

theorem crcShift_eq_xor (c : Word16) : crcShift c = c <<< 1 ^^^ if c.getLsbD 15 then crcPoly else 0#16 := by
  have hmask : (0x8000#16) = BitVec.twoPow 16 15 := rfl
  rw [crcShift, hmask, BitVec.and_twoPow]
  cases c.getLsbD 15
  · simp
  · rfl

theorem getLsbD_last_iff (c : Word16) : c.getLsbD 15 = true ↔ 2 ^ 15 ≤ c.toNat := by
  have hmsb := BitVec.msb_eq_decide c
  rw [BitVec.msb_eq_getLsbD_last] at hmsb
  simpa using congrArg (· = true) hmsb

/-- A register with no set bit to lose is shifted, and no more. -/
theorem crcShift_of_lt {c : Word16} (h : c.toNat < 2 ^ 15) : crcShift c = c <<< 1 := by
  rw [crcShift_eq_xor, if_neg (by rw [getLsbD_last_iff]; omega), BitVec.xor_zero]

/-- The shift is linear over XOR. -/
theorem crcShift_xor (x y : Word16) : crcShift (x ^^^ y) = crcShift x ^^^ crcShift y := by
  simp only [crcShift_eq_xor, BitVec.getLsbD_xor, BitVec.shiftLeft_xor_distrib]
  have hpoly : (if x.getLsbD 15 ^^ y.getLsbD 15 then crcPoly else 0#16)
      = (if x.getLsbD 15 then crcPoly else 0#16) ^^^ (if y.getLsbD 15 then crcPoly else 0#16) := by
    cases x.getLsbD 15 <;> cases y.getLsbD 15 <;> rfl
  rw [hpoly]
  ac_rfl

/-- No nonzero register shifts to zero: where a set bit falls out, `CRC_POLY` sets bit 0. -/
theorem eq_zero_of_crcShift_eq_zero {c : Word16} (h : crcShift c = 0#16) : c = 0#16 := by
  rcases Nat.lt_or_ge c.toNat (2 ^ 15) with hlt | hge
  · rw [crcShift_of_lt hlt] at h
    bv_omega
  · rw [crcShift_eq_xor, if_pos ((getLsbD_last_iff c).2 hge)] at h
    have hbit := congrArg (BitVec.getLsbD · 0) h
    simp [crcPoly] at hbit

theorem crcShift_injective : Function.Injective crcShift := fun x y h =>
  BitVec.xor_eq_zero_iff.1 (eq_zero_of_crcShift_eq_zero (by rw [crcShift_xor, h, BitVec.xor_self]))

/-! ### 8 shifts -/

theorem crcShift_iterate_xor (k : Nat) (x y : Word16) :
    crcShift^[k] (x ^^^ y) = crcShift^[k] x ^^^ crcShift^[k] y := by
  induction k generalizing x y with
  | zero => rfl
  | succ k ih => simp only [Function.iterate_succ_apply, crcShift_xor, ih]

theorem crcShift_iterate_zero (k : Nat) : crcShift^[k] 0#16 = 0#16 := Function.iterate_fixed rfl k

/-- A value whose set bits do not reach the top is shifted, and no more. -/
theorem crcShift_iterate_of_lt (k : Nat) {x : Word16} (h : x.toNat * 2 ^ k < 2 ^ 16) :
    crcShift^[k] x = x <<< k := by
  induction k with
  | zero => exact (BitVec.shiftLeft_zero x).symm
  | succ k ih =>
    rw [pow_succ, ← mul_assoc] at h
    have hnat : (x <<< k).toNat = x.toNat * 2 ^ k := by
      rw [BitVec.toNat_shiftLeft, Nat.shiftLeft_eq, Nat.mod_eq_of_lt (by omega)]
    rw [Function.iterate_succ_apply', ih (by omega), crcShift_of_lt (by omega), ← BitVec.shiftLeft_add]

/-! ### The byte update in the XOR-in form -/

/-- The register with the byte that is being shifted XORed into its high half. -/
def CrcUnit.xorIn (u : CrcUnit) : Word16 := u.crc ^^^ (u.sh.setWidth 16 <<< 8)

/-- An iteration is one shift of the register that the byte is XORed into. -/
theorem CrcUnit.iter_xorIn (u : CrcUnit) (k : BitVec 3) : (u.iter k).xorIn = crcShift u.xorIn := by
  have hmsb : u.xorIn.getLsbD 15 = feedback u.crc u.sh := by
    rw [feedback_eq_xor]
    simp [CrcUnit.xorIn, Bool.xor_comm]
  have hsh : (u.sh <<< 1).setWidth 16 <<< 8 = u.sh.setWidth 16 <<< 8 <<< 1 := by
    apply BitVec.eq_of_toNat_eq
    simp [Nat.shiftLeft_eq]
    omega
  rw [crcShift_eq_xor, hmsb, CrcUnit.xorIn, CrcUnit.iter_crc, CrcUnit.iter_sh, hsh, CrcUnit.xorIn,
    BitVec.shiftLeft_xor_distrib]
  cases feedback u.crc u.sh
  · simp
  · simp only [if_true]
    ac_rfl

theorem CrcUnit.foldl_iter_xorIn (ks : List (BitVec 3)) (u : CrcUnit) :
    (ks.foldl CrcUnit.iter u).xorIn = crcShift^[ks.length] u.xorIn := by
  induction ks generalizing u with
  | nil => rfl
  | cons k ks ih => rw [List.foldl_cons, ih, CrcUnit.iter_xorIn, List.length_cons, Function.iterate_succ_apply]

/-- The byte update: the byte is XORed into the high half, and 8 shifts follow. -/
theorem crcByte_eq_shifts (c : Word16) (b : Byte) : crcByte c b = crcShift^[8] (c ^^^ (b.setWidth 16 <<< 8)) := by
  have hend : ∀ u : CrcUnit, (u.byte b).xorIn = (u.byte b).crc := fun u => by simp [CrcUnit.xorIn, CrcUnit.byte_sh]
  rw [crcByte, ← hend]
  exact CrcUnit.foldl_iter_xorIn iterations _

/-- Settles O5: an iteration is one shift of the XORed-in register, and after 8 of them the byte is spent. -/
theorem crcByteEqualsXorInForm : Obligations.CrcByteEqualsXorInForm := by
  unfold Obligations.CrcByteEqualsXorInForm
  intro u b
  rw [CrcUnit.byte_crc]
  exact crcByte_eq_shifts u.crc b

/-! ### Linearity -/

/-- The byte update is linear over XOR in the register and the byte together. -/
theorem crcByte_xor (c d : Word16) (a b : Byte) : crcByte (c ^^^ d) (a ^^^ b) = crcByte c a ^^^ crcByte d b := by
  simp only [crcByte_eq_shifts, ← crcShift_iterate_xor, BitVec.setWidth_xor, BitVec.shiftLeft_xor_distrib]
  congr 1
  ac_rfl

theorem foldl_crcByte_xor (c d : Word16) {as bs : List Byte} (h : as.length = bs.length) :
    (List.zipWith (· ^^^ ·) as bs).foldl crcByte (c ^^^ d) = as.foldl crcByte c ^^^ bs.foldl crcByte d := by
  induction as generalizing bs c d with
  | nil => obtain rfl := List.eq_nil_of_length_eq_zero h.symm; rfl
  | cons a as ih =>
    obtain ⟨b, bs, rfl⟩ := List.exists_cons_of_length_eq_add_one h.symm
    rw [List.zipWith_cons_cons, List.foldl_cons, List.foldl_cons, List.foldl_cons, crcByte_xor]
    exact ih _ _ (Nat.succ.inj h)

theorem crcByte_zero : crcByte 0#16 0#8 = 0#16 := by
  rw [crcByte_eq_shifts]
  exact crcShift_iterate_zero 8

/-- At register 0, zero bytes change nothing. -/
theorem foldl_crcByte_zeros (n : Nat) : (List.replicate n 0#8).foldl crcByte 0#16 = 0#16 := by
  induction n with
  | zero => rfl
  | succ n ih => rw [List.replicate_succ, List.foldl_cons, crcByte_zero, ih]

/-- Settles O6: the byte update is linear over XOR, and takes register 0 and byte 0 to 0. -/
theorem crcIsLinearAtZero : Obligations.CrcIsLinearAtZero := by
  unfold Obligations.CrcIsLinearAtZero
  simp only [crcCompute_eq_foldl, List.foldl_append, foldl_crcByte_zeros, implies_true, and_true]
  intro as bs h
  exact foldl_crcByte_xor 0#16 0#16 h

/-! ### The residue -/

/-- A byte equal to the high half of the register cancels it, and the low half moves up. -/
theorem crcByte_high (c : Word16) : crcByte c ((c >>> 8).setWidth 8) = c <<< 8 := by
  have hlow : c ^^^ (((c >>> 8).setWidth 8).setWidth 16 <<< 8) = (c.setWidth 8).setWidth 16 := by
    ext i hi
    rcases Nat.lt_or_ge i 8 with hlow | hhigh
    · simp [hlow, hi]
    · simp [Nat.not_lt.2 hhigh, hi, show i - 8 < 8 by omega, show 8 + (i - 8) = i by omega]
  have hlt : ((c.setWidth 8).setWidth 16).toNat * 2 ^ 8 < 2 ^ 16 := by
    simp; omega
  rw [crcByte_eq_shifts, hlow, crcShift_iterate_of_lt 8 hlt]
  bv_omega

/-- A register over its own low half as the high half cancels. -/
theorem crcByte_low (c : Word16) : crcByte (c <<< 8) (c.setWidth 8) = 0#16 := by
  have hcancel : (c.setWidth 8).setWidth 16 <<< 8 = c <<< 8 := by bv_omega
  rw [crcByte_eq_shifts, hcancel, BitVec.xor_self, crcShift_iterate_zero]

/-- Settles O7: the checksum's high byte clears the high half and its low byte the rest. -/
theorem crcResidueIsZero : Obligations.CrcResidueIsZero := by
  unfold Obligations.CrcResidueIsZero
  intro init d
  rw [crcCompute_eq_foldl init (d ++ _), List.foldl_append, ← crcCompute_eq_foldl init d, be16, List.foldl_cons,
    List.foldl_cons, List.foldl_nil, crcByte_high, crcByte_low]

/-! ### Single-bit errors -/

theorem crcByte_injective (b : Byte) : Function.Injective (crcByte · b) := fun c d h => by
  simp only [crcByte_eq_shifts] at h
  exact (BitVec.xor_left_inj _).1 (crcShift_injective.iterate 8 h)

/-- From one register, different bytes lead to different registers. -/
theorem crcByte_injective_byte (c : Word16) : Function.Injective (crcByte c) := fun a b h => by
  simp only [crcByte_eq_shifts] at h
  have h := (BitVec.xor_right_inj _).1 (crcShift_injective.iterate 8 h)
  bv_omega

/-- Different registers stay different over the same bytes. -/
theorem foldl_crcByte_injective (data : List Byte) : Function.Injective fun c => data.foldl crcByte c := by
  induction data with
  | nil => exact Function.injective_id
  | cons b data ih => exact ih.comp (crcByte_injective b)

/-- Changing one byte changes the checksum. -/
theorem crcCompute_modify_ne {d : List Byte} {i : Nat} {f : Byte → Byte} (init : Word16) (hi : i < d.length)
    (hf : ∀ b, f b ≠ b) : crcCompute init (d.modify i f) ≠ crcCompute init d := by
  have hd : d = d.take i ++ d[i] :: d.drop (i + 1) := by simp
  have hm : d.modify i f = d.take i ++ f d[i] :: d.drop (i + 1) := by
    rw [List.modify_eq_take_cons_drop hi]
  rw [hm]
  conv_rhs => rw [hd]
  simp only [crcCompute_eq_foldl, List.foldl_append, List.foldl_cons]
  exact fun h => hf _ (crcByte_injective_byte _ (foldl_crcByte_injective _ h))

/-- Inverting a bit changes the byte. -/
theorem xor_bit_ne {j : Nat} (hj : j < 8) (b : Byte) : b ^^^ (1#8 <<< j) ≠ b := by
  intro h
  have hbit := congrArg (BitVec.getLsbD · j) h
  simp [hj] at hbit

/-- Settles O8: inverting a bit changes its byte, and a changed byte changes the checksum. -/
theorem singleBitFlipChangesCrc : Obligations.SingleBitFlipChangesCrc := by
  unfold Obligations.SingleBitFlipChangesCrc
  intro init d i j hi hj
  exact crcCompute_modify_ne init hi (xor_bit_ne hj)

end Sys2Proof.Machine
end

