-- ==== Sys2Proof/Proofs/FrameLaws.lean ====
section
/-! The frame formats against PARSE (spec/41_frame_codec.md sections 2 and 3): whole request frames, damaged ones, parts
of them and response frames; and what BUILD writes. -/

namespace Sys2Proof.Machine

/-- Settles O10: the round trip of the parser, whose two fields hold what the request serializer put there. -/
theorem parseInvertsRequestFrame : Obligations.ParseInvertsRequestFrame := Instance.parse_reqFrame

/-! ### Frames that are too short for what they declare -/

/-- A buffer that starts with the header and is shorter than its length field declares, or has no whole length field, is
truncated (R84, R86). -/
theorem Instance.parse_of_truncated (cfg : Config) (t : Instance) {raw : List Byte} (h3 : 3 ≤ raw.length)
    (hhead : raw.take 3 = [0xF8#8, 0x55#8, 0xCE#8])
    (hlen : 5 ≤ raw.length → raw.length < 7 + (256 * (raw.getD 3 0#8).toNat + (raw.getD 4 0#8).toNat)) :
    (t.loadRx raw).parse cfg = .err .truncatedFrame := by
  rw [parseChecksInOrder cfg t raw, if_neg (by omega), if_neg (not_not_intro hhead)]
  split
  · rfl
  · rw [if_pos (hlen (by omega))]

/-- The length field after the header holds the number that was put there, if it fits (R60). -/
theorem lengthField_getD {len : Nat} (rest : List Byte) (h : len ≤ 65535) :
    256 * ((header ++ be16 (BitVec.ofNat 16 len) ++ rest).getD 3 0#8).toNat
      + ((header ++ be16 (BitVec.ofNat 16 len) ++ rest).getD 4 0#8).toNat = len := by
  rw [be16_getD header rest _ (a := 3) (b := 4) rfl rfl, BitVec.toNat_ofNat, Nat.mod_eq_of_lt (by omega)]

/-- The length field of a request frame holds the body's length (R94). -/
theorem reqFrame_lengthField (cfg : Config) {p : List Byte} (h : p.length ≤ 65535) :
    256 * ((reqFrame cfg p).getD 3 0#8).toNat + ((reqFrame cfg p).getD 4 0#8).toNat = p.length := by
  rw [reqFrame, List.append_assoc _ p]
  exact lengthField_getD _ h

/-- Settles O11: a part keeps the header and the length field as far as it reaches, and is shorter than they declare. -/
theorem partOfAFrameIsRejected : Obligations.PartOfAFrameIsRejected := by
  unfold Obligations.PartOfAFrameIsRejected
  intro cfg t p k hp hk
  have hpart : ((reqFrame cfg p).take k).length = k := List.length_take_of_le (by omega)
  rcases Nat.lt_or_ge k 3 with hlt | hge
  · rw [if_pos hlt]
    exact Instance.parse_of_short cfg (by rw [Instance.loadRx_rxLen, hpart]; exact hlt)
  · rw [if_neg (by omega)]
    refine t.parse_of_truncated cfg (by omega) ?_ fun h5 => ?_
    · rw [List.take_take, Nat.min_eq_left hge]
      rfl
    · have hfield : ∀ i, i < 5 → ((reqFrame cfg p).take k).getD i 0#8 = (reqFrame cfg p).getD i 0#8 := fun i hi => by
        rw [List.getD_eq_getElem?_getD, List.getD_eq_getElem?_getD, List.getElem?_take_of_lt (by omega)]
      rw [hfield 3 (by omega), hfield 4 (by omega), reqFrame_lengthField cfg hp, hpart]
      rwa [reqFrame_length] at hk

/-- Settles O13: the buffer holds at most `MAX_READ` bytes and declares at least that many. -/
theorem overlongLengthIsTruncated : Obligations.OverlongLengthIsTruncated := by
  unfold Obligations.OverlongLengthIsTruncated
  intro cfg t h l more hmax hlen
  have h5 : 5 ≤ (header ++ h :: l :: more).length := by simp; omega
  have h3 : (header ++ h :: l :: more).getD 3 0#8 = h := rfl
  have h4 : (header ++ h :: l :: more).getD 4 0#8 = l := rfl
  refine t.parse_of_truncated cfg (by omega) rfl fun _ => ?_
  rw [h3, h4]
  omega

/-! ### A damaged body -/

/-- PARSE of a frame whose checksum is not its body's (R88). -/
theorem Instance.parse_of_wrong_checksum (cfg : Config) (t : Instance) {raw body junk : List Byte} {sum : Word16}
    (hraw : raw = header ++ be16 (BitVec.ofNat 16 body.length) ++ body ++ be16 sum ++ junk)
    (h : body.length ≤ 65535) (hsum : crcCompute cfg.crcInit body ≠ sum) :
    (t.loadRx raw).parse cfg = .err .invalidChecksum := by
  have hlen := lengthField_getD (body ++ be16 sum ++ junk) h
  have hfield := be16_getD (header ++ be16 (BitVec.ofNat 16 body.length) ++ body) junk sum
    (a := 5 + body.length) (b := 6 + body.length) (by simp; omega) (by simp; omega)
  simp only [← List.append_assoc, ← hraw] at hlen hfield
  have hhead : raw.take 3 = [0xF8#8, 0x55#8, 0xCE#8] := by rw [hraw]; rfl
  have hbody : (raw.drop 5).take body.length = body := by simp [hraw, header, be16]
  have hsize : 7 + body.length ≤ raw.length := by simp [hraw]; omega
  rw [parseChecksInOrder cfg t, hlen, if_neg (by omega), if_neg (not_not_intro hhead), if_neg (by omega),
    if_neg (by omega), hbody, hfield, if_pos fun heq => hsum (BitVec.eq_of_toNat_eq heq.symm)]

theorem modify_append_of_lt {α : Type} {l : List α} {i : Nat} (f : α → α) (h : i < l.length) (post : List α) :
    (l ++ post).modify i f = l.modify i f ++ post := by
  rw [List.modify_eq_take_cons_drop h, List.modify_eq_take_cons_drop (by simp; omega),
    List.take_append_of_le_length (by omega), List.drop_append_of_le_length (by omega), List.getElem_append_left h,
    List.append_assoc, List.cons_append]

/-- Settles O12: the damaged body has the declared length, and another checksum than the frame's. -/
theorem bodyBitFlipIsRejected : Obligations.BodyBitFlipIsRejected := by
  unfold Obligations.BodyBitFlipIsRejected
  intro cfg t p junk i j hp hi hj
  have hframe : (reqFrame cfg p).modify (5 + i) (· ^^^ (1#8 <<< j))
      = header ++ be16 (BitVec.ofNat 16 (p.modify i (· ^^^ (1#8 <<< j))).length) ++ p.modify i (· ^^^ (1#8 <<< j))
        ++ be16 (crcCompute cfg.crcInit p) := by
    rw [reqFrame, List.append_assoc _ p, List.length_modify, List.append_assoc _ (p.modify _ _),
      ← modify_append_of_lt _ hi _]
    exact List.modifyTailIdx_add _ i (header ++ be16 (BitVec.ofNat 16 p.length)) _
  exact t.parse_of_wrong_checksum cfg (congrArg (· ++ junk) hframe) (by simpa using hp)
    (singleBitFlipChangesCrc _ p i j hi hj)

/-! ### Response frames read as requests -/

/-- At width 2 a response frame is a request frame. -/
theorem rspFrame_of_width_two {cfg : Config} (p : List Byte) (h : cfg.respLenWidth = .two) :
    rspFrame cfg p = reqFrame cfg p := by
  rw [rspFrame, reqFrame, h, beWidth]

/-- At width 1 a response frame is shorter than it declares when read as a request: its length byte is the field's high
byte. -/
theorem rspFrame_too_short_of_width_one {cfg : Config} {p : List Byte} (h : cfg.respLenWidth = .one)
    (hp : p.length < 256) : (rspFrame cfg p).length < 7 + 256 * ((rspFrame cfg p).getD 3 0#8).toNat := by
  have hfield : (rspFrame cfg p).getD 3 0#8 = BitVec.ofNat 8 p.length := by
    simp [rspFrame, header, h, beWidth]
  rw [hfield, rspFrame_length, h, RespLenWidth.bytes, BitVec.toNat_ofNat, Nat.mod_eq_of_lt hp]
  omega

/-- Settles O14: at width 2 the formats coincide, and at width 1 the length byte counts 256 bytes for each. -/
theorem responseReadAsRequest : Obligations.ResponseReadAsRequest := by
  unfold Obligations.ResponseReadAsRequest
  refine ⟨fun cfg t p hw hp => ?_, fun cfg t p hw hp => ?_⟩
  · have hparse := t.parse_reqFrame cfg p [] hp
    rwa [List.append_nil, ← rspFrame_of_width_two p hw] at hparse
  · have hshort := rspFrame_too_short_of_width_one hw hp
    exact t.parse_of_truncated cfg (by rw [rspFrame_length]; omega) rfl fun _ => by omega

/-! ### BUILD -/

/-- R62: the two bytes of a length at width 2, on unsigned integers. -/
theorem beWidth_two {v : Nat} (h : v < 65536) :
    beWidth .two v = [BitVec.ofNat 8 (v / 256), BitVec.ofNat 8 v] := by
  rw [beWidth, be16_eq, BitVec.toNat_ofNat, Nat.mod_eq_of_lt h]

/-- Settles O15: the four writes are one write of the response frame, outside which TX reads as before. -/
theorem buildWritesResponseFrame : Obligations.BuildWritesResponseFrame := by
  unfold Obligations.BuildWritesResponseFrame
  refine fun cfg t => ⟨fun hfit => ⟨writeFrame cfg t.payload t.tx, ?_⟩, fun hlong => ?_⟩
  · rw [Instance.build_of_fits hfit]
    refine ⟨rfl, ?_, fun a ha => ?_⟩
    · rw [Instance.writeResponse_txFrame, rspFrame, header, be16_eq]
      cases hw : cfg.respLenWidth with
      | one => rfl
      | two => rw [beWidth_two (by rwa [hw] at hfit)]
    · rw [writeFrame_eq_writeBytes]
      refine Memory.readByte_writeBytes_of_outside _ _ _ _ (.inr ?_)
      rwa [Nat.zero_add, rspFrame_length]
  · rw [Instance.build, if_pos hlong]

end Sys2Proof.Machine
end

