-- ==== Sys2Proof/Proofs/Decoder.lean ====
section
/-! The decoder's statements (spec/30_encoding.md R57, R63 to R65). -/

namespace Sys2Proof

/-- The opcode map, read backwards: an opcode that decodes is its command's (R64). -/
theorem decodeOpcode_eq_some {op : Byte} {i : Instr} : decodeOpcode op = some i ↔ op = i.opcode := by
  refine ⟨fun h => ?_, fun h => by subst h; cases i <;> rfl⟩
  unfold decodeOpcode at h
  split at h
  · cases h; assumption
  · split at h
    · cases h; assumption
    · cases h

theorem decodeBody_eq_ok {b rest : List Byte} {i : Instr} : decodeBody b = .ok (i, rest) ↔ b = i.opcode :: rest := by
  cases b with
  | nil => simp [decodeBody]
  | cons op tail =>
    rw [List.cons.injEq, ← decodeOpcode_eq_some, decodeBody]
    cases decodeOpcode op <;> simp

/-- A body whose first byte is no command's opcode decodes to nothing (R65, R99, R100). -/
theorem decodeBody_of_unknown {op : Byte} (rest : List Byte) (hid : op ≠ 0x90#8) (hweight : op ≠ 0xA0#8) :
    decodeBody (op :: rest) = .error (.unknownOpcode op) := by
  rw [decodeBody, decodeOpcode, if_neg hid, if_neg hweight]

/-- Settles O16: each sample word's one body byte is looked up in the opcode map. -/
theorem decodeSampleWords : Obligations.DecodeSampleWords := by
  unfold Obligations.DecodeSampleWords
  decide

/-- Settles O17: a body decodes exactly when it is a command's opcode and the bytes after it. -/
theorem decodeAgreesWithEncode : Obligations.DecodeAgreesWithEncode := by
  unfold Obligations.DecodeAgreesWithEncode
  exact ⟨fun i rest _ => decodeBody_eq_ok.2 rfl, fun b rest i => decodeBody_eq_ok.1,
    fun op rest => decodeBody_of_unknown rest, rfl⟩

end Sys2Proof
end

