-- ==== Sys2Proof/Proofs/ProcessStep.lean ====
section
/-! One PROCESS as a step (spec/42_dispatch.md, spec/43_transaction.md): what a command leaves alone, where it is
refused, and the step's two ends. -/

namespace Sys2Proof.Machine

/-- Settles O36: the codes of the two enumerations, by their definition. -/
theorem statusCodes : Obligations.StatusCodes := by
  unfold Obligations.StatusCodes
  exact ⟨rfl, rfl, rfl, rfl, rfl, rfl, rfl, rfl, rfl⟩

/-- Settles O20: a command that completes writes its entry to PAYLOAD of the executed connection. -/
theorem commandsChangeOnlyPayload : Obligations.CommandsChangeOnlyPayload := by
  unfold Obligations.CommandsChangeOnlyPayload
  intro i s s' hreg hexec
  rcases exec_cases i s with ⟨n, c, hact, hc, -⟩ | ⟨-, href⟩
  · rw [exec_of_entry hact hc (hreg ▸ Registry.lookup_registryRom_opcode i), Host.Outcome.next.injEq] at hexec
    subst hexec
    refine ⟨rfl, rfl, rfl, rfl, rfl, List.length_set, fun m d hd hm => ?_, fun m d hm hd => ?_⟩
    · have hnm : n ≠ m := by rintro rfl; exact hm hact
      rw [List.getElem?_set_ne hnm, hd]
    · obtain rfl : n = m := Option.some.inj (hact.symm.trans hm)
      obtain rfl : c = d := Option.some.inj (hc.symm.trans hd)
      exact ⟨_, getElem?_set_of_get hc, rfl, fun a => ⟨rfl, rfl⟩⟩
  · rw [href] at hexec
    cases hexec

/-- Settles O21: a command runs on an executed connection or is refused, and there is no executed connection. -/
theorem commandOutsideProcessIsRefused : Obligations.CommandOutsideProcessIsRefused := by
  unfold Obligations.CommandOutsideProcessIsRefused
  intro i s hnone
  rcases exec_cases i s with ⟨n, c, hact, hc, -⟩ | ⟨-, href⟩
  · simp [State.activeConn, hact, hc] at hnone
  · exact href

/-- PROCESS of a ready connection whose request parses to a command's body: `exec` of the command, then its end. -/
theorem process_of_command {s : State} {n : Nat} {c : Conn} {body rest : List Byte} {i : Instr}
    (hc : s.conns[n]? = some c) (hr : c.inst.ready = true) (hp : c.inst.parse s.cfg = .ok body)
    (hd : decodeBody body = .ok (i, rest)) : process n s = finishOutcome (exec i (s.dispatching n body)) := by
  simp only [process, hc, hr, if_true, hp, dispatchBody, hd]

/-- Settles O22: the step performs the PROCESS, which the schedule names or the machine's own work is. -/
theorem stepRunsDecodedCommand : Obligations.StepRunsDecodedCommand := by
  unfold Obligations.StepRunsDecodedCommand
  intro s n c body rest i hc hr hp hd
  refine ⟨fun acts hs => ?_, fun hs hready => ?_⟩
  · rw [step_of_schedule hs]
    exact process_of_command (s := { s with schedule := acts }) hc hr hp hd
  · rw [step_of_idleAction hs (State.idleAction_of_ready hready)]
    exact process_of_command hc hr hp hd

/-- A body that starts with no command's opcode decodes to nothing, an empty one included. -/
theorem decodeBody_error_of_head {body : List Byte} (hid : body.head? ≠ some 0x90#8)
    (hweight : body.head? ≠ some 0xA0#8) : ∃ e, decodeBody body = .error e := by
  cases body with
  | nil => exact ⟨_, rfl⟩
  | cons op rest => exact ⟨_, decodeBody_of_unknown rest (by simpa using hid) (by simpa using hweight)⟩

/-- PROCESS of a request whose body decodes to nothing: BODY is written, and the abort is taken (R99, R100, R107). -/
theorem Instance.processed_of_unknown (cfg : Config) (r : Registry) (t : Instance) {body : List Byte} {e : DecodeError}
    (h : decodeBody body = .error e) :
    t.processed cfg r body = ({ t.endCrc with body := body } : Instance).abort .unknownOpcode := by
  rcases Instance.processed_cases cfg r body t with heq | ⟨i, rest, p, hd, -⟩
  · exact heq
  · rw [h] at hd
    cases hd

/-- Settles O24: PARSE's error and DISPATCH's both end in the abort. -/
theorem errorTakesAbortPath : Obligations.ErrorTakesAbortPath := by
  unfold Obligations.ErrorTakesAbortPath
  intro s n c acts hs hc hr
  refine ⟨fun e hp => ⟨e.reason, step_of_process_err hs hc hr hp, by cases e <;> rfl⟩, fun body hp hid hweight => ?_⟩
  obtain ⟨e, hd⟩ := decodeBody_error_of_head hid hweight
  have hstep := step_of_process_ok hs hc hr hp
  rw [Instance.processed_of_unknown _ _ _ hd] at hstep
  exact ⟨hstep, rfl⟩

end Sys2Proof.Machine
end

