-- ==== Sys2Proof/Proofs/HostSchedule.lean ====
section
/-! The listener, the failed write and the release as steps (spec/60_exceptions.md R130, R133;
spec/70_reset_and_hazards.md R143). -/

namespace Sys2Proof.Machine

/-- Settles O27: the two actions' definitions. -/
theorem listenerComesBeforeAccept : Obligations.ListenerComesBeforeAccept := by
  unfold Obligations.ListenerComesBeforeAccept
  refine ⟨fun s acts hs => ?_, fun s acts hs hnone => ?_⟩
  · rw [step_of_schedule hs, perform, hostListen]
  · rw [step_of_schedule hs, perform, hostAccept, hnone]

/-- Settles O32: the failed write is a write of which the first `k` bytes of the frame reach the client. -/
theorem failedWriteCloses : Obligations.FailedWriteCloses := by
  unfold Obligations.FailedWriteCloses
  intro s n k c frame acts hs hc hw hf
  refine ⟨frame.take k, List.take_prefix k frame, ?_⟩
  rw [step_of_schedule hs]
  exact hostWrite_of_frame (s := { s with schedule := acts }) (fun bytes => bytes.take k) hc hw hf

theorem Conn.release_of_closed {c : Conn} (h : c.inst.connState = .closed) : c.release = { c with released := true } :=
  if_pos h

theorem Conn.release_of_not_closed {c : Conn} (h : c.inst.connState ≠ .closed) : c.release = c := if_neg h

theorem Conn.unreleased_iff {c : Conn} : c.unreleased = true ↔ c.inst.connState = .closed ∧ c.released = false := by
  simp [Conn.unreleased]

/-- The oldest connection that meets a test is one, and meets it. -/
theorem get_of_findIdx? {α : Type} {l : List α} {p : α → Bool} {n : Nat} (h : l.findIdx? p = some n) :
    ∃ a, l[n]? = some a ∧ p a = true := by
  obtain ⟨hn, hp, -⟩ := List.findIdx?_eq_some_iff_getElem.1 h
  exact ⟨l[n], List.getElem?_eq_getElem hn, hp⟩

theorem perform_release {s : State} {n : Nat} {c : Conn} (hc : s.conns[n]? = some c) :
    perform (.release n) s = .next { s with conns := s.conns.set n c.release } := by
  rw [perform, State.updConn_of_get hc, State.setConn]

/-- Settles O33: a release marks a closed connection, which the machine's own choice of a connection to release is. -/
theorem releaseOnlyWhenClosed : Obligations.ReleaseOnlyWhenClosed := by
  unfold Obligations.ReleaseOnlyWhenClosed
  intro s n c hc
  refine ⟨fun acts hs => ⟨fun hclosed => ?_, fun hopen => ?_⟩, fun hs hready hunrel => ?_⟩
  · rw [step_of_schedule hs, perform_release (s := { s with schedule := acts }) hc, Conn.release_of_closed hclosed]
  · obtain ⟨hn, rfl⟩ := List.getElem?_eq_some_iff.1 hc
    rw [step_of_schedule hs, perform_release (s := { s with schedule := acts }) hc, Conn.release_of_not_closed hopen,
      List.set_getElem_self]
  · obtain ⟨d, hd, hun⟩ := get_of_findIdx? hunrel
    obtain rfl : c = d := Option.some.inj (hc.symm.trans hd)
    obtain ⟨hclosed, -⟩ := Conn.unreleased_iff.1 hun
    have hidle : s.idleAction = some (.release n) := by rw [State.idleAction_of_not_ready hready, hunrel]; rfl
    refine ⟨hclosed, ?_⟩
    rw [step_of_idleAction hs hidle, perform_release hc, Conn.release_of_closed hclosed]

end Sys2Proof.Machine
end

