-- ==== Sys2Proof/Proofs/Moves.lean ====
section
/-! What one step can do to a connection, element by element (spec/10_state.md sections 3 and 4, spec/60_exceptions.md):
each statement is a case analysis over the connection's moves. -/

namespace Sys2Proof.Machine

/-! ### PROCESS on one instance -/

/-- An instance that is not ready is left as it is. -/
theorem ProcessMove.eq_of_not_ready {cfg : Config} {r : Registry} {t t' : Instance} (h : ProcessMove cfg r t t')
    (hr : t.ready = false) : t' = t := by
  cases h with
  | notReady _ => rfl
  | aborted _ hready _ => rw [hr] at hready; cases hready
  | processed _ hready _ => rw [hr] at hready; cases hready

/-- The end of PROCESS of a ready instance: the response is built, or the payload does not fit and the fault mark is
set. -/
theorem Instance.finish_cases (cfg : Config) {t : Instance} (hr : t.ready = true) :
    t.finish cfg = { t.writeResponse cfg with connState := .writing } ∨
      t.finish cfg = { t with faultMark := some .payloadTooLong } := by
  obtain ⟨hp, hf⟩ := (Instance.ready_iff t).1 hr
  rcases Nat.lt_or_ge t.payload.length (2 ^ (8 * cfg.respLenWidth.bytes)) with hfit | hlong
  · exact .inl (Instance.finish_of_fits hp hf hfit)
  · exact .inr (by simp [Instance.finish, hp, Instance.build, hlong])

/-- The ends of PROCESS of a ready instance: aborted, answered, or stuck with the fault mark. -/
inductive ProcessEnd (cfg : Config) (t : Instance) : Instance → Prop
  /-- R107. -/
  | aborted (e : ErrorKind) (body : List Byte) :
      ProcessEnd cfg t (({ t.endCrc with body := body } : Instance).abort e)
  /-- R106. -/
  | answered (body p : List Byte) :
      ProcessEnd cfg t { ({ t.endCrc with body := body, payload := p } : Instance).writeResponse cfg with
        connState := .writing }
  /-- R93, R116. -/
  | faulted (body p : List Byte) :
      ProcessEnd cfg t { t.endCrc with body := body, payload := p, faultMark := some .payloadTooLong }

theorem ProcessMove.ends {cfg : Config} {r : Registry} {t t' : Instance} (h : ProcessMove cfg r t t') :
    t' = t ∨ t.connState = .processing ∧ ProcessEnd cfg t t' := by
  cases h with
  | notReady _ => exact .inl rfl
  | aborted e hr _ => exact .inr ⟨((Instance.ready_iff t).1 hr).1, .aborted e t.body⟩
  | processed body hr _ =>
    refine .inr ⟨((Instance.ready_iff t).1 hr).1, ?_⟩
    rcases Instance.processed_cases cfg r body t with heq | ⟨i, rest, p, -, -, heq⟩
    · rw [heq]
      exact .aborted .unknownOpcode body
    · have hready : ({ t.endCrc with body := body, payload := p } : Instance).ready = true := hr
      rw [heq]
      rcases Instance.finish_cases cfg hready with heq | heq
      · rw [heq]
        exact .answered body p
      · rw [heq]
        exact .faulted body p

/-! ### The statements about one connection -/

/-- Settles O34: a faulted instance is not ready, and the other moves of an instance need Reading, Writing or Closed. -/
theorem faultedInstanceIsStuck : Obligations.FaultedInstanceIsStuck := by
  unfold Obligations.FaultedInstanceIsStuck
  intro s n c hc hp hf
  have hr : c.inst.ready = false := by simp [Instance.ready, hf]
  refine ⟨fun s' h => ?_, fun acts hs => ?_⟩
  · obtain ⟨c', hc', hm⟩ := step_conn h hc
    refine ⟨c', hc', ?_⟩
    cases hm with
    | stay | sent _ | clientClosed | release _ => exact ⟨rfl, rfl⟩
    | read k hret => exact absurd (hp.symm.trans (Conn.readReturns_iff.1 hret).1) nofun
    | process t hmv => exact ⟨hmv.eq_of_not_ready hr, rfl⟩
    | write frame out hw _ _ => exact absurd (hp.symm.trans hw) nofun
  · rw [step_of_schedule hs, perform, process]
    simp [hc, hr]

/-- Settles O42: every move that changes an instance starts in another connection state than Closed. -/
theorem closedInstanceIsFinal : Obligations.ClosedInstanceIsFinal := by
  unfold Obligations.ClosedInstanceIsFinal
  intro s s' n c hc hclosed h
  obtain ⟨c', hc', hm⟩ := step_conn h hc
  refine ⟨c', hc', ?_⟩
  cases hm with
  | stay | sent _ | clientClosed | release _ => rfl
  | read k hret => exact absurd (hclosed.symm.trans (Conn.readReturns_iff.1 hret).1) nofun
  | process t hmv => exact hmv.eq_of_not_ready (by simp [Instance.ready, hclosed])
  | write frame out hw _ _ => exact absurd (hclosed.symm.trans hw) nofun

/-- Settles O43: the read, PROCESS and the write are the moves of `conn_state`. -/
theorem stepFollowsConnStateMachine : Obligations.StepFollowsConnStateMachine := by
  unfold Obligations.StepFollowsConnStateMachine
  intro s s' n c hc h
  obtain ⟨c', hc', hm⟩ := step_conn h hc
  refine ⟨c', hc', ?_⟩
  cases hm with
  | stay | sent _ | clientClosed | release _ => exact .inl rfl
  | read k hret => exact .inr (.inl ⟨(Conn.readReturns_iff.1 hret).1, rfl⟩)
  | process t hmv =>
    rcases hmv.ends with rfl | ⟨hp, hend⟩
    · exact .inl rfl
    · cases hend with
      | aborted _ _ => exact .inr (.inr (.inl ⟨hp, .inr rfl⟩))
      | answered _ _ => exact .inr (.inr (.inl ⟨hp, .inl rfl⟩))
      | faulted _ _ => exact .inl rfl
  | write frame out hw _ _ => exact .inr (.inr (.inr ⟨hw, rfl⟩))

/-- Settles O44: the read writes RX, PROCESS the latches and either TX or REJECT_REASON, and the other moves nothing. -/
theorem stepWritesElementsInTheirStates : Obligations.StepWritesElementsInTheirStates := by
  unfold Obligations.StepWritesElementsInTheirStates
  intro s s' n c c' hc h hc'
  obtain ⟨d, hd, hm⟩ := step_conn h hc
  obtain rfl : c' = d := Option.some.inj (hc'.symm.trans hd)
  cases hm with
  | stay | sent _ | clientClosed | release _ | write => simp [Conn.closeWriting]
  | read k hret => simp [(Conn.readReturns_iff.1 hret).1]
  | process t hmv =>
    rcases hmv.ends with rfl | ⟨hp, hend⟩
    · simp
    · cases hend <;> simp [hp]

/-- Settles O45: the write is the one move that gives the client bytes. -/
theorem clientReceivesOnlyTheResponse : Obligations.ClientReceivesOnlyTheResponse := by
  unfold Obligations.ClientReceivesOnlyTheResponse
  intro s s' n c c' hc h hc' hne
  obtain ⟨d, hd, hm⟩ := step_conn h hc
  obtain rfl : c' = d := Option.some.inj (hc'.symm.trans hd)
  cases hm with
  | stay | sent _ | clientClosed | release _ | read _ _ | process _ _ => exact absurd rfl hne
  | write frame out hw hf ho => exact ⟨hw, rfl, frame, out, hf, ho, rfl⟩

/-! ### The statements about the machine -/

/-- Settles O41: no move touches the shared state. -/
theorem stepKeepsSharedState : Obligations.StepKeepsSharedState := by
  unfold Obligations.StepKeepsSharedState
  intro s s' h
  obtain ⟨hcfg, hreg, -⟩ := step_shared h
  exact ⟨hcfg, hreg⟩

/-- Settles O40: RX is written from empty and TX by BUILD's four writes, and both keep the canonical form. -/
theorem stepKeepsSpacesCanonical : Obligations.StepKeepsSpacesCanonical := by
  unfold Obligations.StepKeepsSpacesCanonical
  intro s s' hwf h d hd
  rcases step_conn_origin h hd with rfl | ⟨c, hc, hm⟩
  · exact Instance.reset_wf
  · obtain ⟨hrx, htx⟩ := hwf c hc
    cases hm with
    | stay | sent _ | clientClosed | release _ | write _ _ _ _ _ => exact ⟨hrx, htx⟩
    | read k _ => exact ⟨Instance.loadRx_wf c.inst _, htx⟩
    | process t hmv =>
      rcases hmv.ends with rfl | ⟨-, hend⟩
      · exact ⟨hrx, htx⟩
      · cases hend with
        | aborted _ _ | faulted _ _ => exact ⟨hrx, htx⟩
        | answered body p => exact ⟨hrx, writeFrame_wf s.cfg p c.inst.tx htx⟩

end Sys2Proof.Machine
end

