-- ==== Sys2Proof/Proofs/Isolation.lean ====
section
/-! An action about one connection, as a function of that connection alone (spec/10_state.md R36, spec/60_exceptions.md
sections 3 and 5): the others are left alone, and actions about different connections commute. -/

namespace Sys2Proof.Machine

/-! ### An action as a function of its connection -/

/-- What PROCESS makes of an instance. -/
def Instance.afterProcess (cfg : Config) (r : Registry) (t : Instance) : Instance :=
  if t.ready then
    match t.parse cfg with
    | .ok body => t.processed cfg r body
    | .err e => t.endCrc.abort e
    | .fault _ => t
  else t

/-- What the host's write makes of a connection. -/
def Conn.hostWrite (sentOf : List Byte → List Byte) (c : Conn) : Conn :=
  if c.inst.connState = .writing then
    match c.inst.txFrame with
    | some frame => c.closeWriting (sentOf frame)
    | none => c
  else c

/-- What an action makes of the connection it is about. -/
def HostAction.moved (cfg : Config) (r : Registry) : HostAction → Conn → Conn
  | .listen, c => c
  | .accept, c => c
  | .clientSend _ bytes, c => c.clientSend bytes
  | .clientClose _, c => c.clientClose
  | .read _ k, c => c.read cfg k
  | .process _, c => { c with inst := c.inst.afterProcess cfg r }
  | .write _, c => c.hostWrite (fun frame => frame)
  | .writeFail _ k, c => c.hostWrite (fun frame => frame.take k)
  | .release _, c => c.release

/-- The machine after an action about connection `n`. -/
def State.moved (s : State) (a : HostAction) (n : Nat) : State :=
  { s with conns := s.conns.modify n (a.moved s.cfg s.registry) }

theorem State.updConn_eq_modify (s : State) (n : Nat) (f : Conn → Conn) :
    s.updConn n f = { s with conns := s.conns.modify n f } := by
  cases hc : s.conns[n]? with
  | none => rw [State.updConn_of_none hc, List.modify_eq_self (List.getElem?_eq_none_iff.1 hc)]
  | some c =>
    rw [State.updConn_of_get hc, State.setConn]
    congr 1
    refine List.ext_getElem? fun m => ?_
    rw [List.getElem?_modify, List.getElem?_set']
    by_cases hm : n = m
    · subst hm; simp [hc]
    · simp [hm]

theorem State.moved_of_get {s : State} {n : Nat} {c : Conn} (a : HostAction) (hc : s.conns[n]? = some c) :
    s.moved a n = s.setConn n (a.moved s.cfg s.registry c) := by
  rw [State.moved, ← State.updConn_eq_modify, State.updConn_of_get hc]

theorem State.moved_of_none {s : State} {n : Nat} (a : HostAction) (hc : s.conns[n]? = none) : s.moved a n = s := by
  rw [State.moved, ← State.updConn_eq_modify, State.updConn_of_none hc]

/-- Every move of PROCESS is the one that `afterProcess` computes. -/
theorem ProcessMove.eq_afterProcess {cfg : Config} {r : Registry} {t t' : Instance} (h : ProcessMove cfg r t t') :
    t' = t.afterProcess cfg r := by
  cases h with
  | notReady hr => simp [Instance.afterProcess, hr]
  | aborted e hr hp => simp [Instance.afterProcess, hr, hp]
  | processed body hr hp => simp [Instance.afterProcess, hr, hp]

/-- On a buffer that holds what its length says, `afterProcess` is one of the moves of PROCESS. -/
theorem Instance.processMove_afterProcess (cfg : Config) (r : Registry) {t : Instance} (h : t.rx.exactly t.rxLen) :
    ProcessMove cfg r t (t.afterProcess cfg r) := by
  cases hr : t.ready with
  | false => simpa [Instance.afterProcess, hr] using ProcessMove.notReady hr
  | true =>
    cases hp : t.parse cfg with
    | ok body => simpa [Instance.afterProcess, hr, hp] using ProcessMove.processed body hr hp
    | err e => simpa [Instance.afterProcess, hr, hp] using ProcessMove.aborted e hr hp
    | fault f => exact absurd hp (t.parse_ne_fault cfg f h)

theorem State.setConn_self {s : State} {n : Nat} {c : Conn} (hc : s.conns[n]? = some c) : s.setConn n c = s := by
  obtain ⟨hn, rfl⟩ := List.getElem?_eq_some_iff.1 hc
  rw [State.setConn, List.set_getElem_self]

/-- Where the host's write answers a next state, it is `Conn.hostWrite` on the connection. -/
theorem hostWrite_eq_updConn {s s' : State} {n : Nat} {sentOf : List Byte → List Byte}
    (h : hostWrite n sentOf s = .next s') : s' = s.updConn n (Conn.hostWrite sentOf) := by
  cases hc : s.conns[n]? with
  | none =>
    rw [State.updConn_of_none hc]
    simpa [hostWrite, hc, eq_comm] using h
  | some c =>
    rw [State.updConn_of_get hc]
    by_cases hw : c.inst.connState = .writing
    · cases hf : c.inst.txFrame with
      | none => simp [hostWrite, hc, hw, hf] at h
      | some frame =>
        rw [hostWrite_of_frame sentOf hc hw hf] at h
        cases h
        simp [Conn.hostWrite, hw, hf]
    · rw [Conn.hostWrite, if_neg hw, State.setConn_self hc]
      simpa [hostWrite, hc, hw, eq_comm] using h

/-- Where an action about connection `n` answers a next state, it moves that connection, and a PROCESS besides leaves
no connection being executed. -/
theorem perform_eq_moved {s s' : State} {a : HostAction} {n : Nat} (ht : a.target = some n)
    (h : perform a s = .next s') : s' = s.moved a n ∨ s' = { s.moved a n with active := none } := by
  cases a with
  | listen | accept => cases ht
  | clientSend | clientClose | read | release =>
    cases ht
    cases h
    exact .inl (s.updConn_eq_modify n _)
  | write | writeFail =>
    cases ht
    exact .inl ((hostWrite_eq_updConn h).trans (s.updConn_eq_modify n _))
  | process =>
    cases ht
    rcases process_cases h with ⟨hc, rfl⟩ | ⟨c, t, hc, hm, hs⟩
    · exact .inl (State.moved_of_none _ hc).symm
    · rw [State.moved_of_get _ hc, HostAction.moved, ← hm.eq_afterProcess]
      exact hs

/-! ### The others are left alone -/

theorem State.moved_get_of_ne (s : State) (a : HostAction) {n m : Nat} (h : n ≠ m) :
    (s.moved a n).conns[m]? = s.conns[m]? := by
  rw [State.moved, List.getElem?_modify_ne _ _ h]

/-- An action that is not about connection `m` leaves it as it is. -/
theorem perform_get_of_ne {s s' : State} {a : HostAction} {m : Nat} {c : Conn} (hc : s.conns[m]? = some c)
    (ht : a.target ≠ some m) (h : perform a s = .next s') : s'.conns[m]? = some c := by
  cases hn : a.target with
  | some n =>
    have hne : n ≠ m := by rintro rfl; exact ht hn
    rcases perform_eq_moved hn h with rfl | rfl <;> exact (s.moved_get_of_ne a hne).trans hc
  | none =>
    cases a with
    | listen => cases h; exact hc
    | accept =>
      cases h
      unfold hostAccept
      split
      · exact (List.getElem?_append_left (List.getElem?_eq_some_iff.1 hc).1).trans hc
      · exact hc
    | _ => cases hn

/-- The machine's own work: PROCESS of a ready connection or, with none ready, the release of a closed one. -/
theorem State.idleAction_cases {s : State} {a : HostAction} (h : s.idleAction = some a) :
    ∃ n c, s.conns[n]? = some c ∧
      (a = .process n ∧ s.readyConn = some n ∧ c.inst.ready = true ∨ a = .release n ∧ c.unreleased = true) := by
  cases hr : s.readyConn with
  | some n =>
    rw [State.idleAction_of_ready hr] at h
    obtain ⟨c, hc, hready⟩ := get_of_findIdx? hr
    exact ⟨n, c, hc, .inl ⟨(Option.some.inj h).symm, rfl, hready⟩⟩
  | none =>
    rw [State.idleAction_of_not_ready hr, Option.map_eq_some_iff] at h
    obtain ⟨n, hn, rfl⟩ := h
    obtain ⟨c, hc, hun⟩ := get_of_findIdx? hn
    exact ⟨n, c, hc, .inr ⟨rfl, hun⟩⟩

/-- A step with nothing pending leaves a connection alone that the machine's own work is not about. -/
theorem step_get_of_idle {s s' : State} {m : Nat} {c : Conn} (hs : s.schedule = []) (hc : s.conns[m]? = some c)
    (ht : ∀ a, s.idleAction = some a → a.target ≠ some m) (h : step s = .next s') : s'.conns[m]? = some c := by
  cases ha : s.idleAction with
  | none =>
    rw [step_of_waiting hs ha] at h
    cases h
    exact hc
  | some a =>
    rw [step_of_idleAction hs ha] at h
    exact perform_get_of_ne hc (ht a ha) h

/-- Settles O46: an action moves no other connection than its target, and the machine's own work on a connection that is
not the oldest ready one is its release. -/
theorem connectionsAreIsolated : Obligations.ConnectionsAreIsolated := by
  unfold Obligations.ConnectionsAreIsolated
  intro s s' m c hc h
  refine ⟨fun a acts hs ht => ?_, fun hs ht => step_get_of_idle hs hc ht h, fun hs hready => ?_⟩
  · rw [step_of_schedule hs] at h
    exact perform_get_of_ne (s := { s with schedule := acts }) hc ht h
  · by_cases ht : ∀ a, s.idleAction = some a → a.target ≠ some m
    · exact .inl (step_get_of_idle hs hc ht h)
    · push Not at ht
      obtain ⟨a, ha, htm⟩ := ht
      obtain ⟨n, d, hd, ⟨rfl, hn, -⟩ | ⟨rfl, hun⟩⟩ := State.idleAction_cases ha
      · exact absurd (hn.trans htm) hready
      · obtain rfl : n = m := Option.some.inj htm
        obtain rfl : c = d := Option.some.inj (hc.symm.trans hd)
        obtain ⟨hclosed, -⟩ := Conn.unreleased_iff.1 hun
        rw [step_of_idleAction hs ha, perform_release hc, Conn.release_of_closed hclosed] at h
        cases h
        exact .inr ⟨hclosed, getElem?_set_of_get hc⟩

/-! ### Under the invariant every action answers a next state -/

/-- PROCESS reads within what RX holds, so it does not fault. -/
theorem process_answers {s : State} (n : Nat) (hinv : s.Inv) : ∃ s', process n s = .next s' := by
  cases hc : s.conns[n]? with
  | none => exact ⟨s, by simp [process, hc]⟩
  | some c =>
    cases hr : c.inst.ready with
    | false => exact ⟨s, by simp [process, hc, hr]⟩
    | true =>
      cases hp : c.inst.parse s.cfg with
      | ok body => exact ⟨_, process_of_ok hc hr hp⟩
      | err e => exact ⟨_, process_of_err hc hr hp⟩
      | fault f => exact absurd hp (c.inst.parse_ne_fault s.cfg f (hinv.conn hc).inst.rx_exactly)

/-- The host's write reads within what TX holds, so it does not fault. -/
theorem hostWrite_answers {s : State} (n : Nat) (sentOf : List Byte → List Byte) (hinv : s.Inv) :
    ∃ s', hostWrite n sentOf s = .next s' := by
  cases hc : s.conns[n]? with
  | none => exact ⟨s, by simp [hostWrite, hc]⟩
  | some c =>
    by_cases hw : c.inst.connState = .writing
    · obtain ⟨-, -, htx, -⟩ := (hinv.conn hc).inst
      obtain ⟨frame, hf⟩ := Option.isSome_iff_exists.1 (c.inst.txFrame_isSome htx)
      exact ⟨_, hostWrite_of_frame sentOf hc hw hf⟩
    · exact ⟨s, by simp [hostWrite, hc, hw]⟩

theorem perform_answers {s : State} (a : HostAction) (hinv : s.Inv) : ∃ s', perform a s = .next s' := by
  cases a with
  | process n => exact process_answers n hinv
  | write n | writeFail n => exact hostWrite_answers n _ hinv
  | _ => exact ⟨_, rfl⟩

/-- Settles O39: a step performs an action, or waits. -/
theorem invariantStateNeverStops : Obligations.InvariantStateNeverStops := by
  unfold Obligations.InvariantStateNeverStops
  intro s hinv
  cases hs : s.schedule with
  | cons a acts =>
    rw [step_of_schedule hs]
    exact perform_answers a hinv
  | nil =>
    cases ha : s.idleAction with
    | none => exact ⟨s, step_of_waiting hs ha⟩
    | some a =>
      rw [step_of_idleAction hs ha]
      exact perform_answers a hinv

/-- Under the invariant an action about connection `n` moves that connection, and does nothing else. -/
theorem perform_of_target {s : State} {a : HostAction} {n : Nat} (hinv : s.Inv) (ht : a.target = some n) :
    perform a s = .next (s.moved a n) := by
  obtain ⟨s', h⟩ := perform_answers a hinv
  have hidle : { s.moved a n with active := none } = s.moved a n := by
    obtain ⟨-, hact, -⟩ := hinv
    rw [State.moved, hact]
  rcases perform_eq_moved ht h with rfl | rfl
  · exact h
  · rw [h, hidle]

/-! ### Actions about different connections commute -/

theorem step_of_target {s : State} {a : HostAction} {n : Nat} {acts : List HostAction} (hinv : s.Inv)
    (hs : s.schedule = a :: acts) (ht : a.target = some n) :
    step s = .next (State.moved { s with schedule := acts } a n) := by
  rw [step_of_schedule hs]
  exact perform_of_target (s := { s with schedule := acts }) hinv ht

/-- Two actions, about the connections `n` and `m`. -/
theorem run_two_of_targets {s : State} {a b : HostAction} {n m : Nat} (acts : List HostAction) (hinv : s.Inv)
    (ha : a.target = some n) (hb : b.target = some m) :
    core.run 2 { s with schedule := a :: b :: acts }
      = .next ((State.moved { s with schedule := acts } a n).moved b m) := by
  have hstart : State.Inv { s with schedule := a :: b :: acts } := hinv
  have hfirst := step_of_target hstart rfl ha
  have hinv' := stepKeepsInvariant _ _ hstart hfirst
  have hsecond := step_of_target hinv' rfl hb
  exact (run_succ_of_next 1 hfirst).trans (run_succ_of_next 0 hsecond)

theorem State.moved_comm (s : State) (a b : HostAction) {n m : Nat} (h : n ≠ m) :
    (s.moved a n).moved b m = (s.moved b m).moved a n := by
  simp only [State.moved, List.modify_modify_ne _ _ _ h]

/-- Settles O47: each action moves its own connection, and the two moves are of different ones. -/
theorem interleavingsCommute : Obligations.InterleavingsCommute := by
  unfold Obligations.InterleavingsCommute
  intro s a b acts n m hinv ha hb hne
  rw [run_two_of_targets acts hinv ha hb, run_two_of_targets acts hinv hb ha, State.moved_comm _ a b hne]

end Sys2Proof.Machine
end

