-- ==== Sys2Proof/Proofs/Progress.lean ====
section
/-! What the machine does with nothing pending (spec/60_exceptions.md R128, R130; spec/70_reset_and_hazards.md R149):
each step of its own work leaves less of it, and it waits where none is left. -/

namespace Sys2Proof.Machine

/-! ### Runs with a bound -/

/-- Where each step with nothing pending lowers a measure as long as `Q` does not hold, a run of no more steps than the
measure reaches `Q`. -/
theorem exists_run_of_measure {Q : State → Prop} {work : State → Nat}
    (hstep : ∀ s : State, s.Inv → s.schedule = [] → ¬ Q s →
      ∃ s', step s = .next s' ∧ s'.schedule = [] ∧ work s' < work s) (s : State) (hinv : s.Inv) (hs : s.schedule = []) :
    ∃ k s', k ≤ work s ∧ core.run k s = .next s' ∧ s'.Inv ∧ s'.schedule = [] ∧ Q s' := by
  induction hw : work s using Nat.strong_induction_on generalizing s with
  | _ w ih =>
    by_cases hQ : Q s
    · exact ⟨0, s, Nat.zero_le _, run_zero s, hinv, hs, hQ⟩
    · obtain ⟨s₁, h₁, hs₁, hlt⟩ := hstep s hinv hs hQ
      obtain ⟨k, s', hk, hrun, hend⟩ := ih _ (hw ▸ hlt) s₁ (stepKeepsInvariant s s₁ hinv h₁) hs₁ rfl
      exact ⟨k + 1, s', by omega, (run_succ_of_next k h₁).trans hrun, hend⟩

/-! ### Measures summed over the connections -/

/-- The sum of a measure over the connections. -/
def State.total (weight : Conn → Nat) (s : State) : Nat := (s.conns.map weight).sum

theorem sum_map_modify_lt {α : Type} {weight : α → Nat} {f : α → α} {l : List α} {n : Nat} {a : α}
    (ha : l[n]? = some a) (h : weight (f a) < weight a) : ((l.modify n f).map weight).sum < (l.map weight).sum := by
  induction l generalizing n with
  | nil => simp at ha
  | cons b l ih =>
    cases n with
    | zero =>
      obtain rfl : b = a := by simpa using ha
      simpa using h
    | succ n =>
      have := ih (n := n) (by simpa using ha)
      simpa using this

/-- Moving one connection to less weight lowers the total. -/
theorem State.total_moved_lt {weight : Conn → Nat} {s : State} {a : HostAction} {n : Nat} {c : Conn}
    (hc : s.conns[n]? = some c) (h : weight (a.moved s.cfg s.registry c) < weight c) :
    (s.moved a n).total weight < s.total weight :=
  sum_map_modify_lt hc h

theorem State.total_le {weight : Conn → Nat} {b : Nat} (s : State) (h : ∀ c, weight c ≤ b) :
    s.total weight ≤ b * s.conns.length := by
  have := List.sum_le_card_nsmul (s.conns.map weight) b (by simpa using fun c _ => h c)
  rwa [List.length_map, smul_eq_mul, Nat.mul_comm] at this

/-- The PROCESSes a connection has yet to run. -/
def Conn.processWork (c : Conn) : Nat := if c.inst.ready then 1 else 0

/-- The steps of the machine's own work on a connection: PROCESS and then, if it ends in an abort, the release. -/
def Conn.work (c : Conn) : Nat := if c.inst.ready then 2 else if c.unreleased then 1 else 0

theorem Conn.processWork_le (c : Conn) : c.processWork ≤ 1 := by unfold Conn.processWork; split <;> omega

theorem Conn.work_le (c : Conn) : c.work ≤ 2 := by
  unfold Conn.work
  split
  · omega
  · split <;> omega

/-! ### A step of the machine's own work -/

/-- PROCESS of a ready instance that meets the invariant leaves Processing. -/
theorem Instance.Inv.afterProcess_not_ready {cfg : Config} {t : Instance} (h : t.Inv cfg) (hr : t.ready = true) :
    (t.afterProcess cfg registryRom).ready = false := by
  have hmove := Instance.processMove_afterProcess cfg registryRom h.rx_exactly
  rcases hmove.cases_of_inv h (h.ready_iff.1 hr) with ⟨e, body, -, heq⟩ | ⟨body, p, -, -, heq⟩
  · rw [heq]; rfl
  · rw [heq]; rfl

/-- A step with nothing pending and the invariant met, where the machine has work of its own. -/
theorem step_of_own_work {s : State} {a : HostAction} {n : Nat} (hinv : s.Inv) (hs : s.schedule = [])
    (ha : s.idleAction = some a) (ht : a.target = some n) : step s = .next (s.moved a n) := by
  rw [step_of_idleAction hs ha]
  exact perform_of_target hinv ht

theorem Conn.work_after_process {cfg : Config} {c : Conn} (n : Nat) (h : c.Inv cfg) (hr : c.inst.ready = true) :
    ((HostAction.process n).moved cfg registryRom c).work < c.work := by
  have hend : ((HostAction.process n).moved cfg registryRom c).inst.ready = false := h.inst.afterProcess_not_ready hr
  rw [Conn.work, Conn.work, hr, hend]
  simp only [Bool.false_eq_true, if_false, if_true]
  split <;> omega

theorem Conn.work_after_release {cfg : Config} {c : Conn} {r : Registry} (n : Nat) (h : c.unreleased = true) :
    ((HostAction.release n).moved cfg r c).work < c.work := by
  obtain ⟨hclosed, -⟩ := Conn.unreleased_iff.1 h
  have hr : c.inst.ready = false := by simp [Instance.ready, hclosed]
  rw [HostAction.moved, Conn.release_of_closed hclosed]
  rw [Conn.work, Conn.work, hr, h]
  simp [Conn.unreleased]

/-- Work of the machine's own, where there is some, lowers its total. -/
theorem step_lowers_work {s : State} (hinv : s.Inv) (hs : s.schedule = []) (ha : s.idleAction ≠ none) :
    ∃ s', step s = .next s' ∧ s'.schedule = [] ∧ s'.total Conn.work < s.total Conn.work := by
  obtain ⟨a, ha⟩ := Option.ne_none_iff_exists'.1 ha
  obtain ⟨n, c, hc, ⟨rfl, -, hr⟩ | ⟨rfl, hun⟩⟩ := State.idleAction_cases ha
  · refine ⟨_, step_of_own_work hinv hs ha rfl, hs, State.total_moved_lt hc ?_⟩
    obtain ⟨hreg, -⟩ := id hinv
    rw [hreg]
    exact Conn.work_after_process n (hinv.conn hc) hr
  · exact ⟨_, step_of_own_work hinv hs ha rfl, hs, State.total_moved_lt hc (Conn.work_after_release n hun)⟩

/-- A PROCESS, where one is ready, lowers the number of those that are. -/
theorem step_lowers_processWork {s : State} (hinv : s.Inv) (hs : s.schedule = []) (hready : s.readyConn ≠ none) :
    ∃ s', step s = .next s' ∧ s'.schedule = [] ∧ s'.total Conn.processWork < s.total Conn.processWork := by
  obtain ⟨n, hn⟩ := Option.ne_none_iff_exists'.1 hready
  obtain ⟨c, hc, hr⟩ := get_of_findIdx? hn
  refine ⟨_, step_of_own_work hinv hs (State.idleAction_of_ready hn) rfl, hs, State.total_moved_lt hc ?_⟩
  obtain ⟨hreg, -⟩ := id hinv
  have hend : ((HostAction.process n).moved s.cfg s.registry c).inst.ready = false := by
    rw [hreg]
    exact (hinv.conn hc).inst.afterProcess_not_ready hr
  simp [Conn.processWork, hr, hend]

/-! ### The statements -/

/-- Under the invariant the machine has no work of its own exactly where every connection waits for the host's read or
write, or is closed and released. -/
theorem State.Inv.idleAction_eq_none {s : State} (hinv : s.Inv) :
    s.idleAction = none ↔ ∀ c ∈ s.conns, c.inst.connState = .reading ∨ c.inst.connState = .writing ∨
      (c.inst.connState = .closed ∧ c.released = true) := by
  obtain ⟨-, -, hconns⟩ := hinv
  rw [State.idleAction_eq_none]
  refine forall₂_congr fun c hc => ?_
  have hr := (hconns c hc).inst.ready_iff
  cases hst : c.inst.connState <;> simp [Conn.unreleased, hst, ← Bool.not_eq_true, hr]

/-- Settles O48: each step runs one PROCESS, until none is ready. -/
theorem processingEndsWithoutHost : Obligations.ProcessingEndsWithoutHost := by
  unfold Obligations.ProcessingEndsWithoutHost
  intro s hinv hs
  obtain ⟨k, s', hk, hrun, ⟨-, -, hconns⟩, -, hdone⟩ :=
    exists_run_of_measure (fun _ => step_lowers_processWork) s hinv hs
  have hbound := s.total_le Conn.processWork_le
  refine ⟨k, s', by omega, hrun, fun c hc hp => ?_⟩
  have hready := List.findIdx?_eq_none_iff.1 hdone c hc
  rw [(hconns c hc).inst.ready_iff.2 hp] at hready
  cases hready

/-- Settles O49: each step runs one PROCESS or one release, until the machine waits. -/
theorem closedConnectionsAreReleased : Obligations.ClosedConnectionsAreReleased := by
  unfold Obligations.ClosedConnectionsAreReleased
  intro s hinv hs
  obtain ⟨k, s', hk, hrun, hinv', hs', hdone⟩ := exists_run_of_measure (fun _ => step_lowers_work) s hinv hs
  exact ⟨k, s', hk.trans (s.total_le Conn.work_le), hrun, hs', hinv'.idleAction_eq_none.1 hdone⟩

/-- Settles O50: work of the machine's own lowers its total, so the state does not stay. -/
theorem onlyReadAndWriteWait : Obligations.OnlyReadAndWriteWait := by
  unfold Obligations.OnlyReadAndWriteWait
  intro s hinv hs
  rw [← hinv.idleAction_eq_none]
  refine ⟨fun h => ?_, step_of_waiting hs⟩
  by_contra ha
  obtain ⟨s', h', -, hlt⟩ := step_lowers_work hinv hs ha
  obtain rfl : s = s' := Host.Outcome.next.inj (h.symm.trans h')
  exact lt_irrefl _ hlt

end Sys2Proof.Machine
end

