-- ==== Sys2Proof/Proofs/Outcome.lean ====
section
/-! The outcome of PROCESS (spec/20_memory.md section 7, spec/43_transaction.md): a function of what PARSE answers,
`CRC_INIT` and `RESP_LEN_WIDTH`. -/

namespace Sys2Proof.Machine

/-- The elements that PROCESS leaves for the host to see. -/
def Instance.outcome (t : Instance) : Option (List Byte) × RejectReason × ConnState :=
  (t.txFrame, t.rejectReason, t.connState)

/-- The outcome of PROCESS from what PARSE answers (R106, R107). -/
def OpResult.outcome (cfg : Config) : OpResult (List Byte) → Option (List Byte) × RejectReason × ConnState
  | .err e => (some [], e.reason, .closed)
  | .fault _ => (some [], .none, .processing)
  | .ok body =>
    match decodeBody body with
    | .ok (i, _) => (some (rspFrame cfg (romPayload i)), .none, .writing)
    | .error _ => (some [], .unknownOpcode, .closed)

theorem OpResult.outcome_congr {cfg cfg' : Config} (res : OpResult (List Byte)) (hcrc : cfg.crcInit = cfg'.crcInit)
    (hw : cfg.respLenWidth = cfg'.respLenWidth) : res.outcome cfg = res.outcome cfg' := by
  cases res <;> simp only [OpResult.outcome, rspFrame, hcrc, hw]

/-- An abort shows its error and an empty TX. -/
theorem Instance.abort_outcome {t : Instance} (e : ErrorKind) (h : t.txLen = 0) :
    (t.abort e).outcome = (some [], e.reason, .closed) := by
  simp [Instance.outcome, Instance.txFrame, h, Memory.readBytes]

/-- PROCESS of an instance in Processing that meets the invariant. -/
theorem Instance.Inv.afterProcess_outcome {cfg : Config} {t : Instance} (h : t.Inv cfg)
    (hp : t.connState = .processing) :
    (t.afterProcess cfg registryRom).outcome = (t.parse cfg).outcome cfg := by
  obtain ⟨-, -, hlen, -, hreason, hfault⟩ := h.of_processing hp
  have hready := h.ready_iff.2 hp
  cases hparse : t.parse cfg with
  | err e =>
    rw [← (ProcessMove.aborted e hready hparse).eq_afterProcess]
    exact Instance.abort_outcome e hlen
  | fault f => exact absurd hparse (t.parse_ne_fault cfg f h.rx_exactly)
  | ok body =>
    rw [← (ProcessMove.processed body hready hparse).eq_afterProcess, OpResult.outcome]
    cases hd : decodeBody body with
    | error e =>
      rw [Instance.processed_of_unknown _ _ _ hd]
      exact Instance.abort_outcome .unknownOpcode hlen
    | ok d =>
      rw [Instance.processed_of_entry hp hfault hd (Registry.lookup_registryRom_opcode d.1) (romPayload_fits _ d.1)]
      exact congrArg₂ (fun frame r => (frame, r, ConnState.writing)) (Instance.writeResponse_txFrame cfg _) hreason

/-- The instance that a PROCESS at the front of the schedule leaves, where the invariant is met. -/
theorem inst_of_process_step {s s' : State} {n : Nat} {c c' : Conn} {acts : List HostAction} (hinv : s.Inv)
    (hs : s.schedule = .process n :: acts) (hc : s.conns[n]? = some c) (h : step s = .next s')
    (hc' : s'.conns[n]? = some c') : c'.inst = c.inst.afterProcess s.cfg registryRom := by
  rw [step_of_target hinv hs rfl, Host.Outcome.next.injEq] at h
  obtain ⟨hreg, -⟩ := hinv
  have hmoved : c' = (HostAction.process n).moved s.cfg s.registry c := by
    simpa [← h, State.moved, hc] using hc'.symm
  rw [hmoved, hreg, HostAction.moved]

/-- Settles O25: PARSE reads the request and `CRC_INIT`, and the rest of the outcome follows from what it answers. -/
theorem outcomeDependsOnRequestAlone : Obligations.OutcomeDependsOnRequestAlone := by
  unfold Obligations.OutcomeDependsOnRequestAlone
  intro s₁ s₂ s₁' s₂' n₁ n₂ c₁ c₂ c₁' c₂' acts₁ acts₂ hinv₁ hinv₂ hs₁ hs₂ hc₁ hc₂ hp₁ hp₂ hlen hrx hcrc hw
    h₁ h₂ hc₁' hc₂'
  have hout₁ := (hinv₁.conn hc₁).inst.afterProcess_outcome hp₁
  have hout₂ := (hinv₂.conn hc₂).inst.afterProcess_outcome hp₂
  rw [← inst_of_process_step hinv₁ hs₁ hc₁ h₁ hc₁', Instance.parse_congr hcrc hlen hrx,
    OpResult.outcome_congr _ hcrc hw, ← hout₂, ← inst_of_process_step hinv₂ hs₂ hc₂ h₂ hc₂'] at hout₁
  simpa [Instance.outcome] using hout₁

end Sys2Proof.Machine
end
